-- ==== Sys2Proof/Word.lean ====
section
/-! DEFINITION. The word types of the CHIP-8 core: spec/00_scope.md R4 (sizes) and R12 (all values are unsigned
bit strings). -/

namespace Sys2Proof

/-- A byte: a general register, a timer counter, a memory byte (R4). -/
abbrev Byte := BitVec 8

/-- 16 bits: an instruction word, the program counter, the index register, a stack slot (R4). -/
abbrev Word := BitVec 16

/-- The number of a general register V0 to VF: the `x` and `y` fields of a word (R20, R73). -/
abbrev Reg := Fin 16

/-- VF, the register that doubles as the flag (R18, R22). -/
abbrev VF : Reg := 15

end Sys2Proof
end

