-- ==== Sys2Proof/Config.lean ====
section
/-! DEFINITION. What is fixed for one machine and what the environment chooses freely. The constants with no body are
the spec's OPEN parameters (spec/00_scope.md R6, R10) and the host's free inputs (spec/60_exceptions.md R234, R237,
R239): nothing can be proved about their values, so a theorem holds for every value. -/

namespace Sys2Proof

/-- The two readings of 8XY6 and 8XYE (R7). -/
inductive ShiftQuirk where
  /-- the source of the shift is V[x] -/
  | inPlace
  /-- the source of the shift is V[y] -/
  | copyVy
  deriving DecidableEq, Repr

/-- The order of the two register writes of 8XY6 and 8XYE (R9). -/
inductive ShiftXfOrder where
  /-- the flag is written first, so with x = F the shifted value stays -/
  | flagThenResult
  /-- the result is written first, so with x = F the flag stays -/
  | resultThenFlag
  deriving DecidableEq, Repr

/-- How many stack slots the state has room for: 64, the greatest `STACK_CAPACITY` the spec names (spec/90_conflicts.md C1).
How many of them may be in use is the parameter. -/
abbrev Config.stackSlots : Nat := 64

/-- The parameters of a model (R5 to R11): constant during a run, and no part of the state (spec/10_state.md R39). The values
of this hardware are `hardware` of Machine/Ops.lean. -/
structure Params where
  /-- `STACK_CAPACITY` (R5) -/
  stackCapacity : Nat
  /-- `CYCLE_RATE` (R6), which gives `TIMER_PERIOD` (R8) -/
  cycleRate : Nat
  /-- `SHIFT_QUIRK` (R7) -/
  shiftQuirk : ShiftQuirk
  /-- `SHIFT_XF_ORDER` (R9) -/
  shiftXfOrder : ShiftXfOrder
  /-- `MEM_INIT` (R10): the bytes from address 0 up; past the end of the list they are free -/
  memInit : List Byte
  /-- `FONT` (R11) -/
  font : List Byte
  deriving DecidableEq, Repr

/-- OPEN (R6): how far the configured cycle rate lies above 60. R8 requires `CYCLE_RATE ≥ 60`, so every allowed rate is
`60` plus some number. -/
opaque Config.cycleRateAbove60 : Nat

/-- `CYCLE_RATE` (R6), any value that R8 allows. -/
def Config.cycleRate : Nat := 60 + Config.cycleRateAbove60

/-- OPEN (R10): `MEM_INIT`, the byte at an address that neither the font nor the ROM load nor any instruction wrote. -/
opaque Config.memInit : Nat → Byte

/-- Free (R234): the keys the host sets in its `k`-th handle_key step, where the state lists none. -/
opaque Config.keysIn : Nat → BitVec 16

/-- Free (R237): the host's `k`-th answer to the quit-query, where the state lists none. -/
opaque Config.quitIn : Nat → Bool

/-- Free (R15, R239): the byte of the `k`-th draw of CXNN, where the state lists none. -/
opaque Config.rndIn : Nat → Byte

end Sys2Proof
end

