-- ==== Sys2Proof/Syntax.lean ====
section
/-! DEFINITION. The instructions: one constructor per row of spec/opcode_table.json, in the table's order
(spec/30_encoding.md R75). The operand types are the field widths of R71 and R73, so every term is an instruction
the encoding can express. A word that matches no row is no instruction (R77): decoding refuses it by name and the
cycle runs it as a no-op. -/

namespace Sys2Proof

/-- The 34 instruction patterns of R75. `x`, `y` are register numbers, `n` the row count, `nn` an 8-bit immediate
and `nnn` a 12-bit address (R73). -/
inductive Instr where
  /-- `00E0` CLS (R170) -/
  | cls
  /-- `00EE` RET (R100) -/
  | ret
  /-- `1NNN` JP nnn (R101) -/
  | jp (nnn : BitVec 12)
  /-- `2NNN` CALL nnn (R102) -/
  | call (nnn : BitVec 12)
  /-- `3XNN` SE Vx, nn (R103) -/
  | seVxNn (x : Reg) (nn : Byte)
  /-- `4XNN` SNE Vx, nn (R104) -/
  | sneVxNn (x : Reg) (nn : Byte)
  /-- `5XY0` SE Vx, Vy (R105) -/
  | seVxVy (x y : Reg)
  /-- `6XNN` LD Vx, nn (R122) -/
  | ldVxNn (x : Reg) (nn : Byte)
  /-- `7XNN` ADD Vx, nn (R123) -/
  | addVxNn (x : Reg) (nn : Byte)
  /-- `8XY0` LD Vx, Vy (R124) -/
  | ldVxVy (x y : Reg)
  /-- `8XY1` OR Vx, Vy (R125) -/
  | or (x y : Reg)
  /-- `8XY2` AND Vx, Vy (R126) -/
  | and (x y : Reg)
  /-- `8XY3` XOR Vx, Vy (R127) -/
  | xor (x y : Reg)
  /-- `8XY4` ADD Vx, Vy (R128) -/
  | addVxVy (x y : Reg)
  /-- `8XY5` SUB Vx, Vy (R129) -/
  | sub (x y : Reg)
  /-- `8XY6` SHR Vx, Vy (R131) -/
  | shr (x y : Reg)
  /-- `8XY7` SUBN Vx, Vy (R130) -/
  | subn (x y : Reg)
  /-- `8XYE` SHL Vx, Vy (R132) -/
  | shl (x y : Reg)
  /-- `9XY0` SNE Vx, Vy (R106) -/
  | sneVxVy (x y : Reg)
  /-- `ANNN` LD I, nnn (R150) -/
  | ldINnn (nnn : BitVec 12)
  /-- `BNNN` JP V0, nnn (R107) -/
  | jpV0Nnn (nnn : BitVec 12)
  /-- `CXNN` RND Vx, nn (R133) -/
  | rnd (x : Reg) (nn : Byte)
  /-- `DXYN` DRW Vx, Vy, n (R171) -/
  | drw (x y : Reg) (n : BitVec 4)
  /-- `EX9E` SKP Vx (R190) -/
  | skp (x : Reg)
  /-- `EXA1` SKNP Vx (R191) -/
  | sknp (x : Reg)
  /-- `FX07` LD Vx, DT (R193) -/
  | ldVxDt (x : Reg)
  /-- `FX0A` LD Vx, K (R192) -/
  | ldVxK (x : Reg)
  /-- `FX15` LD DT, Vx (R194) -/
  | ldDtVx (x : Reg)
  /-- `FX18` LD ST, Vx (R195) -/
  | ldStVx (x : Reg)
  /-- `FX1E` ADD I, Vx (R151) -/
  | addIVx (x : Reg)
  /-- `FX29` LD F, Vx (R152) -/
  | ldFVx (x : Reg)
  /-- `FX33` LD B, Vx (R153) -/
  | ldBVx (x : Reg)
  /-- `FX55` LD [I], Vx (R154) -/
  | ldMemVx (x : Reg)
  /-- `FX65` LD Vx, [I] (R155) -/
  | ldVxMem (x : Reg)
  deriving DecidableEq, Repr

end Sys2Proof
end

