-- ==== Sys2Proof/WellFormed.lean ====
section
/-! DEFINITION. The checks on what is given to the machine from outside. An `Instr` needs none: its operand types are
the field widths of spec/30_encoding.md R71, so no ill-formed instruction can be built. What the spec makes a launch
check are the ROM's length (spec/70_reset_and_hazards.md R257) and the parameters (spec/00_scope.md R5 to R11). -/

namespace Sys2Proof

/-- A ROM image: raw bytes with no header (R256). -/
abbrev Rom := List Byte

/-- R257: the ROM, loaded at 0x200, ends inside the 4096 bytes of memory. -/
def Rom.wellFormed (rom : Rom) : Bool := decide (0x200 + rom.length ≤ 4096)

/-- R8: the cycle rate gives a timer period of at least 1. -/
def cycleRateWellFormed (rate : Nat) : Bool := decide (1 ≤ rate / 60)

/-- The parameters are values the spec allows and the state has room for: R8 for the rate, R11 for the font's size, R4 for the
memory's. -/
def Params.wellFormed (p : Params) : Bool :=
  decide (p.stackCapacity ≤ Config.stackSlots) && cycleRateWellFormed p.cycleRate &&
    decide (p.memInit.length ≤ 4096) && decide (p.font.length = 80)

end Sys2Proof
end

