-- ==== Sys2Proof/Decode.lean ====
section
/-! DEFINITION. Decoding and encoding: spec/30_encoding.md R71 to R80, with the byte order of spec/20_memory.md R60. -/

namespace Sys2Proof

/-! ## Fields (R71) -/

/-- `x = ins[11:8]`, a register number. -/
def fieldX (w : Word) : Reg := (w.extractLsb' 8 4).toFin

/-- `y = ins[7:4]`, a register number. -/
def fieldY (w : Word) : Reg := (w.extractLsb' 4 4).toFin

/-- `n = ins[3:0]`. -/
def fieldN (w : Word) : BitVec 4 := w.extractLsb' 0 4

/-- `nn = ins[7:0]`. -/
def fieldNN (w : Word) : Byte := w.extractLsb' 0 8

/-- `nnn = ins[11:0]`. -/
def fieldNNN (w : Word) : BitVec 12 := w.extractLsb' 0 12

/-! ## Byte order (R60): the byte at the lower address is bits 15:8 -/

/-- The word whose bytes are `hi` (lower address) and `lo` (R55). -/
def wordOfBytes (hi lo : Byte) : Word := hi ++ lo

/-- Bits 15:8 of a word, the byte at the lower address. -/
def highByte (w : Word) : Byte := w.extractLsb' 8 8

/-- Bits 7:0 of a word, the byte at the higher address. -/
def lowByte (w : Word) : Byte := w.extractLsb' 0 8

/-! ## The opcode map (R75) -/

/-- One row of the opcode map: a word `w` is this instruction when `w & mask = code`, and `build` reads its fields. -/
structure OpcodeRow where
  /-- the mnemonic of spec/opcode_table.json -/
  mnemonic : String
  /-- the `match` column -/
  code : Word
  /-- the `mask` column -/
  mask : Word
  /-- the instruction that a matching word stands for -/
  build : Word → Instr

/-- Families 0 to 7 (R75). -/
def opcodeRows0to7 : List OpcodeRow := [
  ⟨"CLS", 0x00E0, 0xFFFF, fun _ => .cls⟩,
  ⟨"RET", 0x00EE, 0xFFFF, fun _ => .ret⟩,
  ⟨"JP", 0x1000, 0xF000, fun w => .jp (fieldNNN w)⟩,
  ⟨"CALL", 0x2000, 0xF000, fun w => .call (fieldNNN w)⟩,
  ⟨"SE_VX_NN", 0x3000, 0xF000, fun w => .seVxNn (fieldX w) (fieldNN w)⟩,
  ⟨"SNE_VX_NN", 0x4000, 0xF000, fun w => .sneVxNn (fieldX w) (fieldNN w)⟩,
  ⟨"SE_VX_VY", 0x5000, 0xF00F, fun w => .seVxVy (fieldX w) (fieldY w)⟩,
  ⟨"LD_VX_NN", 0x6000, 0xF000, fun w => .ldVxNn (fieldX w) (fieldNN w)⟩,
  ⟨"ADD_VX_NN", 0x7000, 0xF000, fun w => .addVxNn (fieldX w) (fieldNN w)⟩]

/-- Family 8 (R75). -/
def opcodeRows8 : List OpcodeRow := [
  ⟨"LD_VX_VY", 0x8000, 0xF00F, fun w => .ldVxVy (fieldX w) (fieldY w)⟩,
  ⟨"OR", 0x8001, 0xF00F, fun w => .or (fieldX w) (fieldY w)⟩,
  ⟨"AND", 0x8002, 0xF00F, fun w => .and (fieldX w) (fieldY w)⟩,
  ⟨"XOR", 0x8003, 0xF00F, fun w => .xor (fieldX w) (fieldY w)⟩,
  ⟨"ADD_VX_VY", 0x8004, 0xF00F, fun w => .addVxVy (fieldX w) (fieldY w)⟩,
  ⟨"SUB", 0x8005, 0xF00F, fun w => .sub (fieldX w) (fieldY w)⟩,
  ⟨"SHR", 0x8006, 0xF00F, fun w => .shr (fieldX w) (fieldY w)⟩,
  ⟨"SUBN", 0x8007, 0xF00F, fun w => .subn (fieldX w) (fieldY w)⟩,
  ⟨"SHL", 0x800E, 0xF00F, fun w => .shl (fieldX w) (fieldY w)⟩]

/-- Families 9 to E (R75). -/
def opcodeRows9toE : List OpcodeRow := [
  ⟨"SNE_VX_VY", 0x9000, 0xF00F, fun w => .sneVxVy (fieldX w) (fieldY w)⟩,
  ⟨"LD_I_NNN", 0xA000, 0xF000, fun w => .ldINnn (fieldNNN w)⟩,
  ⟨"JP_V0_NNN", 0xB000, 0xF000, fun w => .jpV0Nnn (fieldNNN w)⟩,
  ⟨"RND", 0xC000, 0xF000, fun w => .rnd (fieldX w) (fieldNN w)⟩,
  ⟨"DRW", 0xD000, 0xF000, fun w => .drw (fieldX w) (fieldY w) (fieldN w)⟩,
  ⟨"SKP", 0xE09E, 0xF0FF, fun w => .skp (fieldX w)⟩,
  ⟨"SKNP", 0xE0A1, 0xF0FF, fun w => .sknp (fieldX w)⟩]

/-- Family F (R75). -/
def opcodeRowsF : List OpcodeRow := [
  ⟨"LD_VX_DT", 0xF007, 0xF0FF, fun w => .ldVxDt (fieldX w)⟩,
  ⟨"LD_VX_K", 0xF00A, 0xF0FF, fun w => .ldVxK (fieldX w)⟩,
  ⟨"LD_DT_VX", 0xF015, 0xF0FF, fun w => .ldDtVx (fieldX w)⟩,
  ⟨"LD_ST_VX", 0xF018, 0xF0FF, fun w => .ldStVx (fieldX w)⟩,
  ⟨"ADD_I_VX", 0xF01E, 0xF0FF, fun w => .addIVx (fieldX w)⟩,
  ⟨"LD_F_VX", 0xF029, 0xF0FF, fun w => .ldFVx (fieldX w)⟩,
  ⟨"LD_B_VX", 0xF033, 0xF0FF, fun w => .ldBVx (fieldX w)⟩,
  ⟨"LD_MEM_VX", 0xF055, 0xF0FF, fun w => .ldMemVx (fieldX w)⟩,
  ⟨"LD_VX_MEM", 0xF065, 0xF0FF, fun w => .ldVxMem (fieldX w)⟩]

/-- The opcode map, the 34 rows of R75 in the table's order. -/
def opcodeTable : List OpcodeRow := opcodeRows0to7 ++ opcodeRows8 ++ opcodeRows9toE ++ opcodeRowsF

/-- A word matches a row: `w & mask = code` (R75). -/
abbrev OpcodeRow.Matches (r : OpcodeRow) (w : Word) : Prop := w &&& r.mask = r.code

/-- R76: the instruction of the row that the word matches, or `none` for an unrecognised word (R77). -/
def decodeWord (w : Word) : Option Instr :=
  (opcodeTable.find? fun r => decide (r.Matches w)).map fun r => r.build w

/-! ## Decoding bytes -/

/-- Why bytes give no instruction. -/
inductive DecodeError where
  /-- fewer than the two bytes every instruction takes (R71) -/
  | tooShort
  /-- a word that matches no row of the opcode map: a no-op (R77) -/
  | unrecognised (w : Word)
  deriving DecidableEq, Repr

/-- Decode the first instruction of a list of bytes, and give the bytes after it. -/
def decodeBytes : List Byte → Except DecodeError (Instr × List Byte)
  | hi :: lo :: rest =>
    match decodeWord (wordOfBytes hi lo) with
    | some i => .ok (i, rest)
    | none => .error (.unrecognised (wordOfBytes hi lo))
  | _ => .error .tooShort

/-! ## Encoding (R72) -/

/-- Format `NNN`: family, 12-bit address. -/
def encodeNNN (family : BitVec 4) (nnn : BitVec 12) : Word := family ++ nnn

/-- Format `XNN`: family, register, 8-bit immediate. -/
def encodeXNN (family : BitVec 4) (x : Reg) (nn : Byte) : Word := family ++ (BitVec.ofFin x : BitVec 4) ++ nn

/-- Formats `XY` and `XYN`: family, two registers, a function or row count. -/
def encodeXYN (family : BitVec 4) (x y : Reg) (n : BitVec 4) : Word :=
  family ++ (BitVec.ofFin x : BitVec 4) ++ (BitVec.ofFin y : BitVec 4) ++ n

/-- The word of an instruction. Format `X` has the layout of `XNN` with the function code in its low byte. -/
def encode : Instr → Word
  | .cls => 0x00E0
  | .ret => 0x00EE
  | .jp nnn => encodeNNN 0x1 nnn
  | .call nnn => encodeNNN 0x2 nnn
  | .seVxNn x nn => encodeXNN 0x3 x nn
  | .sneVxNn x nn => encodeXNN 0x4 x nn
  | .seVxVy x y => encodeXYN 0x5 x y 0x0
  | .ldVxNn x nn => encodeXNN 0x6 x nn
  | .addVxNn x nn => encodeXNN 0x7 x nn
  | .ldVxVy x y => encodeXYN 0x8 x y 0x0
  | .or x y => encodeXYN 0x8 x y 0x1
  | .and x y => encodeXYN 0x8 x y 0x2
  | .xor x y => encodeXYN 0x8 x y 0x3
  | .addVxVy x y => encodeXYN 0x8 x y 0x4
  | .sub x y => encodeXYN 0x8 x y 0x5
  | .shr x y => encodeXYN 0x8 x y 0x6
  | .subn x y => encodeXYN 0x8 x y 0x7
  | .shl x y => encodeXYN 0x8 x y 0xE
  | .sneVxVy x y => encodeXYN 0x9 x y 0x0
  | .ldINnn nnn => encodeNNN 0xA nnn
  | .jpV0Nnn nnn => encodeNNN 0xB nnn
  | .rnd x nn => encodeXNN 0xC x nn
  | .drw x y n => encodeXYN 0xD x y n
  | .skp x => encodeXNN 0xE x 0x9E
  | .sknp x => encodeXNN 0xE x 0xA1
  | .ldVxDt x => encodeXNN 0xF x 0x07
  | .ldVxK x => encodeXNN 0xF x 0x0A
  | .ldDtVx x => encodeXNN 0xF x 0x15
  | .ldStVx x => encodeXNN 0xF x 0x18
  | .addIVx x => encodeXNN 0xF x 0x1E
  | .ldFVx x => encodeXNN 0xF x 0x29
  | .ldBVx x => encodeXNN 0xF x 0x33
  | .ldMemVx x => encodeXNN 0xF x 0x55
  | .ldVxMem x => encodeXNN 0xF x 0x65

/-- The bytes of an instruction, lowest address first. -/
def encodeBytes (i : Instr) : List Byte := [highByte (encode i), lowByte (encode i)]

/-! ## Words of the opcode table -/

/-- The instruction word whose `nbits` lowest bits are those of `w`, every bit above them 0. -/
def tableWord (nbits w : Nat) : Word := BitVec.ofNat 16 (w % 2 ^ nbits)

/-- The instruction the decoder reads from an instruction whose bits are `w`, numbered as spec/opcode_table.json
numbers them. -/
def decodeTableWord (nbits w : Nat) : Option Instr :=
  match decodeBytes [highByte (tableWord nbits w), lowByte (tableWord nbits w)] with
  | .ok (i, _) => some i
  | .error _ => none

end Sys2Proof
end

