-- ==== Sys2Proof/Machine/State.lean ====
section
/-! DEFINITION. The state of the core: every row of spec/10_state.md §1 and R41, the latched output ports of
spec/60_exceptions.md R241, and the model's own record of what the host will answer. -/

namespace Sys2Proof.Machine

/-- A fatal condition with the values it records (R211). They are raised by `State.raiseFatal` and stand in `FAULT`. -/
inductive Fatal where
  /-- code 1: CALL with a full stack; records the address of the instruction -/
  | stackOverflow (pc : Word)
  /-- code 2: RET with an empty stack; records the address of the instruction -/
  | stackUnderflow (pc : Word)
  /-- code 3: a fetch above 0xFFE; records PC -/
  | fetchRange (pc : Word)
  /-- code 4: a data byte address above 0xFFF (DRW, LD_B_VX, LD_MEM_VX, LD_VX_MEM); records the address of the
  instruction and the first such data address -/
  | memRange (pc : Word) (addr : Nat)
  /-- code 5: a key code above 0xF (SKP, SKNP); records the address of the instruction and the code -/
  | keyRange (pc : Word) (key : Byte)
  deriving DecidableEq, Repr

/-- Memory: the listed (address, byte) pairs, addresses strictly rising (`Memory.wf`). What an unlisted address reads as is
`unlistedByte` of Machine/Ops.lean. -/
abbrev Memory := List Host.Cell

/-- The framebuffer (R36): row `y` of 32, bit `x` of 64 is the pixel at column `x`. -/
abbrev Frame := Vector (BitVec 64) 32

/-- What the host answers in one cycle: ports `keys_in` and `quit_in` (R241). -/
structure HostTurn where
  /-- the keys it sets in the handle_key step (R234) -/
  keysIn : BitVec 16
  /-- its answer to the quit-query (R237) -/
  quitIn : Bool
  deriving DecidableEq, Repr

/-- The state of the core (R41), the output ports (R241) and the host's answers to come (the model's own). -/
structure State where
  /-- general registers V0 to VF (R20) -/
  v : Vector Byte 16
  /-- index register I (R24) -/
  i : Word
  /-- program counter (R25) -/
  pc : Word
  /-- the call stack's slots (R29), as many as the greatest capacity the spec names; STACK_CAPACITY of them are used -/
  stack : Vector Word Config.stackSlots
  /-- SP, the number of return addresses held, 0 to STACK_CAPACITY (R29) -/
  sp : Fin (Config.stackSlots + 1)
  /-- delay timer counter DT (R32) -/
  dt : Byte
  /-- sound timer counter ST (R32) -/
  st : Byte
  /-- delay timer accumulator DT_ACC (R34) -/
  dtAcc : Nat
  /-- sound timer accumulator ST_ACC (R34) -/
  stAcc : Nat
  /-- KEY: bit `k` is 1 when key `k` is pressed (R35) -/
  key : BitVec 16
  /-- FB (R36) -/
  fb : Frame
  /-- MEM (R50) -/
  mem : Memory
  /-- FAULT: none, or the fatal condition taken (R37) -/
  fault : Option Fatal
  /-- RUN_ENDED (R42) -/
  runEnded : Bool
  /-- output port frame_out: the frame of the last completed cycle's render step (R233, R241) -/
  frameOut : Frame
  /-- output port beep_out: the level of the last completed cycle's beep step (R236, R241) -/
  beepOut : Bool
  /-- the model's own: the host's answers in the coming cycles, first one first. Beyond them its answers are free. -/
  hostTurns : List HostTurn
  /-- the model's own: how many times the host has been called, the argument of `Config.keysIn` and `Config.quitIn` -/
  hostCalls : Nat
  /-- the model's own: the bytes the coming draws of CXNN give, first one first. Beyond them the bytes are free. -/
  rndBytes : List Byte
  /-- the model's own: how many bytes CXNN has drawn, the argument of `Config.rndIn` -/
  draws : Nat
  deriving DecidableEq, Repr

/-- Why a step answers no next state: the state is terminal, and the spec gives it no further cycle (R230). -/
inductive Fault where
  /-- raised by the cycle in a state whose FAULT is set (R212): safe, the spec gives no step here -/
  | halted (reason : Fatal)
  /-- raised by the cycle in a state whose RUN_ENDED is true (R42, R231): safe, the spec gives no step here -/
  | runEnded
  deriving DecidableEq, Repr

/-- Why something has no meaning in the model. -/
inductive Refusal where
  /-- an instruction not modelled: no arm of `exec` answers it; safe -/
  | notModelled (mnemonic : String)
  /-- raised by `State.loadRom` on a ROM that does not fit (R257): safe, the spec refuses such a launch -/
  | romTooLarge (length : Nat)
  /-- raised by `launch` on parameters the spec does not allow, such as a timer period of 0 (R8): safe, the spec refuses such
  a launch -/
  | parametersNotAllowed
  deriving DecidableEq, Repr

/-- The state after construction, before the ROM load (R41, R42, R255). Memory lists nothing: the font and `MEM_INIT` are
what unlisted addresses read as. The output ports and the model's own fields are DESIGN CHOICES (notes/assumptions/9, 3
and 4). -/
def State.reset : State where
  v := Vector.replicate 16 0
  i := 0
  pc := 0x200
  stack := Vector.replicate Config.stackSlots 0
  sp := 0
  dt := 0
  st := 0
  dtAcc := 0
  stAcc := 0
  key := 0
  fb := Vector.replicate 32 0
  mem := []
  fault := none
  runEnded := false
  frameOut := Vector.replicate 32 0
  beepOut := false
  hostTurns := []
  hostCalls := 0
  rndBytes := []
  draws := 0

end Sys2Proof.Machine
end

