-- ==== Sys2Proof/Machine/Ops.lean ====
section
/-! DEFINITION. The named operations over the state: parameters, registers, memory, the call stack, taking a fatal
condition, control transfer, the keypad, the timers, the fetch, the host exchange and the ROM load. -/

namespace Sys2Proof.Machine

/-! ## Parameters of this hardware (spec/00_scope.md §3) -/

/-- `STACK_CAPACITY`, 16 for this hardware (R5; spec/90_conflicts.md C1). -/
def stackCapacity : Nat := 16

/-- `SHIFT_QUIRK`, at the spec's default (R7). -/
def shiftQuirk : ShiftQuirk := .inPlace

/-- `SHIFT_XF_ORDER`, at the spec's default (R9). -/
def shiftXfOrder : ShiftXfOrder := .flagThenResult

/-- `TIMER_PERIOD = CYCLE_RATE div 60` (R8). -/
def timerPeriod : Nat := Config.cycleRate / 60

/-- `FONT`, at the spec's default (R11, R57): 16 glyphs of 5 bytes. PRESUMED (notes/assumptions/2): the spec takes the bytes
from general knowledge. -/
def font : List Byte := [
  0xF0, 0x90, 0x90, 0x90, 0xF0,
  0x20, 0x60, 0x20, 0x20, 0x70,
  0xF0, 0x10, 0xF0, 0x80, 0xF0,
  0xF0, 0x10, 0xF0, 0x10, 0xF0,
  0x90, 0x90, 0xF0, 0x10, 0x10,
  0xF0, 0x80, 0xF0, 0x10, 0xF0,
  0xF0, 0x80, 0xF0, 0x90, 0xF0,
  0xF0, 0x10, 0x20, 0x40, 0x40,
  0xF0, 0x90, 0xF0, 0x90, 0xF0,
  0xF0, 0x90, 0xF0, 0x10, 0xF0,
  0xF0, 0x90, 0xF0, 0x90, 0x90,
  0xE0, 0x90, 0xE0, 0x90, 0xE0,
  0xF0, 0x80, 0x80, 0x80, 0xF0,
  0xE0, 0x90, 0x90, 0x90, 0xE0,
  0xF0, 0x80, 0xF0, 0x80, 0xF0,
  0xF0, 0x80, 0xF0, 0x80, 0x80]

/-- The parameters of this hardware. No byte of `MEM_INIT` is given, so every one is free (R10). -/
def hardware : Params where
  stackCapacity := stackCapacity
  cycleRate := Config.cycleRate
  shiftQuirk := shiftQuirk
  shiftXfOrder := shiftXfOrder
  memInit := []
  font := font

/-- `TIMER_PERIOD` under given parameters (R8). -/
def timerPeriodOf (p : Params) : Nat := p.cycleRate / 60

/-- The address of the first font byte (R56). -/
def fontBase : Nat := 0x050

/-- The address programs are loaded at and PC starts from (R58). -/
def programBase : Nat := 0x200

/-- The greatest memory address (R50). -/
def lastAddr : Nat := 0xFFF

/-! ## Registers -/

/-- Read `V[r]` (R13, R20). -/
def State.getV (s : State) (r : Reg) : Byte := s.v[r]

/-- Write `V[r]` (R13, R20). -/
def State.setV (s : State) (r : Reg) (b : Byte) : State := { s with v := s.v.set r b }

/-- Write `PC` (R25). -/
def State.setPc (s : State) (a : Word) : State := { s with pc := a }

/-- Write `I` (R24). -/
def State.setI (s : State) (a : Word) : State := { s with i := a }

/-- Write `DT`; `DT_ACC` stays (R34). -/
def State.setDt (s : State) (b : Byte) : State := { s with dt := b }

/-- Write `ST`; `ST_ACC` stays (R34). -/
def State.setSt (s : State) (b : Byte) : State := { s with st := b }

/-- Write the framebuffer (R36). -/
def State.setFb (s : State) (f : Frame) : State := { s with fb := f }

/-! ## Memory: one canonical list -/

/-- The byte construction puts at an address, where the spec gives one: the font (R56, R255). -/
def constructionByte? (a : Nat) : Option Byte := if fontBase ≤ a then font[a - fontBase]? else none

/-- What an unlisted address reads as: its construction byte, else `MEM_INIT` (R10, R41, R63). -/
def unlistedByte (a : Nat) : Byte := (constructionByte? a).getD (Config.memInit a)

/-- The byte listed for an address. -/
def Memory.lookup (m : Memory) (a : Nat) : Option Byte :=
  match m with
  | [] => none
  | (b, v) :: m => if a = b then some v else Memory.lookup m a

/-- The byte at an address. -/
def Memory.read (m : Memory) (a : Nat) : Byte := (m.lookup a).getD (unlistedByte a)

/-- List `v` for `a`, keeping the addresses rising. -/
def Memory.insert (m : Memory) (a : Nat) (v : Byte) : Memory :=
  match m with
  | [] => [(a, v)]
  | (b, w) :: m =>
    if a < b then (a, v) :: (b, w) :: m
    else if a = b then (a, v) :: m
    else (b, w) :: Memory.insert m a v

/-- List nothing for `a`. -/
def Memory.erase (m : Memory) (a : Nat) : Memory := m.filter fun c => c.1 ≠ a

/-- Store a byte. Storing the byte an unlisted address is known to read as removes the entry. -/
def Memory.write (m : Memory) (a : Nat) (v : Byte) : Memory :=
  if constructionByte? a = some v then m.erase a else m.insert a v

/-- The canonical form: addresses strictly rising and inside memory, and no entry that is known to equal what its address
reads as unlisted. -/
abbrev Memory.wf (m : Memory) : Prop :=
  m.Pairwise (fun c d => c.1 < d.1) ∧ ∀ c ∈ m, c.1 ≤ lastAddr ∧ constructionByte? c.1 ≠ some c.2

/-- `MEM[a]` (R13, R52). -/
def State.memRead (s : State) (a : Nat) : Byte := s.mem.read a

/-- `MEM[a] <- b` (R13, R53). -/
def State.memWrite (s : State) (a : Nat) (b : Byte) : State := { s with mem := s.mem.write a b }

/-! ## Taking a fatal condition -/

/-- The address the executing instruction was fetched from: PC has advanced by 2 (R211). -/
def State.instrPc (s : State) : Word := s.pc - 2

/-- `raise Fatal(r)` (R14, R212): FAULT takes the reason with its recorded values. The cycle ends there, and no later cycle
runs; nothing else is saved and control goes nowhere (R215). There is no return from it (R216). -/
def State.raiseFatal (s : State) (r : Fatal) : State := { s with fault := some r }

/-- The numeric code of a reason (R211). -/
def Fatal.code : Fatal → Nat
  | .stackOverflow _ => 1
  | .stackUnderflow _ => 2
  | .fetchRange _ => 3
  | .memRange _ _ => 4
  | .keyRange _ _ => 5

/-- Output port fault_out, a view of FAULT (R241). -/
def State.faultOut (s : State) : Option Fatal := s.fault

/-- Output port ended_out, a view of RUN_ENDED (R241). -/
def State.endedOut (s : State) : Bool := s.runEnded

/-- Bit `k` of output port frame_out: bit `64*y + x` is the pixel in row `y`, column `x` (R241). -/
def State.frameOutBit (s : State) (k : Nat) : Bool := (s.frameOut[k / 64]?.getD 0).getLsbD (k % 64)

/-! ## Data accesses: R52 to R54, bytes in ascending order -/

/-- `MemWrite` of the bytes `bs` at `a, a+1, …`. The first address above 0xFFF raises MEM_RANGE; the writes before it stay
(R53, R54, R157). -/
def State.storeBytes (s : State) (a : Nat) (bs : List Byte) : State :=
  match bs with
  | [] => s
  | b :: bs =>
    if a ≤ lastAddr then State.storeBytes (s.memWrite a b) (a + 1) bs
    else s.raiseFatal (.memRange s.instrPc a)

/-- `V[k] <- MemRead(base + k)` for each register `k` of `rs` in turn. The first address above 0xFFF raises MEM_RANGE; the
registers written before it stay (R52, R54, R157). -/
def State.loadRegs (s : State) (base : Nat) (rs : List Reg) : State :=
  match rs with
  | [] => s
  | k :: ks =>
    if base + k.val ≤ lastAddr then State.loadRegs (s.setV k (s.memRead (base + k.val))) base ks
    else s.raiseFatal (.memRange s.instrPc (base + k.val))

/-! ## The call stack -/

/-- `STACK[k]` (R29). -/
def State.slot (s : State) (k : Nat) : Word := s.stack[k]?.getD 0

/-- `Push(a)` with a given STACK_CAPACITY (R30). -/
def State.push (s : State) (capacity : Nat) (a : Word) : Except Fatal State :=
  if h : s.sp.val < capacity ∧ s.sp.val < Config.stackSlots then
    .ok { s with stack := s.stack.set s.sp.val a h.2, sp := ⟨s.sp.val + 1, Nat.succ_lt_succ h.2⟩ }
  else .error (.stackOverflow s.instrPc)

/-- `Pop()` (R31): the address popped and the state after. The slot keeps its value. -/
def State.pop (s : State) : Except Fatal (Word × State) :=
  if h : s.sp.val = 0 then .error (.stackUnderflow s.instrPc)
  else
    .ok (s.stack[s.sp.val - 1]'(by have := s.sp.isLt; omega),
      { s with sp := ⟨s.sp.val - 1, Nat.lt_of_le_of_lt (Nat.sub_le _ _) s.sp.isLt⟩ })

/-! ## Control transfer -/

/-- `Skip()`: PC <- PC + 2 on top of the fetch advance (R108). -/
def State.skip (s : State) : State := s.setPc (s.pc + 2)

/-- `Skip()` if the condition holds. -/
def State.skipIf (s : State) (c : Bool) : State := if c then s.skip else s

/-! ## Keypad -/

/-- `KEY[k]` for `k` up to 15 (R35). -/
def State.keyPressed (s : State) (k : Nat) : Bool := s.key.getLsbD k

/-- `LowestPressed()`, the least `k` with `KEY[k]`, or none (R35). -/
def State.lowestPressed (s : State) : Option Nat := (List.range 16).find? fun k => s.keyPressed k

/-! ## Framebuffer -/

/-- Row `y` of a frame; a row outside the screen is clear. -/
def Frame.row (f : Frame) (y : Nat) : BitVec 64 := f[y]?.getD 0

/-- `FB[y][x]` (R36). -/
def Frame.pixel (f : Frame) (y x : Nat) : Bool := (f.row y).getLsbD x

/-- `FB[y][x] <- FB[y][x] XOR 1` (R171). -/
def Frame.flip (f : Frame) (y x : Nat) : Frame := f.setIfInBounds y (f.row y ^^^ BitVec.twoPow 64 x)

/-- The frame with every pixel 0 (R170). -/
def Frame.clear : Frame := Vector.replicate 32 0

/-! ## Timers -/

/-- `Tick(C, ACC)` with a given period (R225). -/
def tickTimer (period : Nat) (t : Byte × Nat) : Byte × Nat :=
  if 0 < t.1.toNat then
    if t.2 + 1 = period then (t.1 - 1, 0) else (t.1, t.2 + 1)
  else t

/-- The tick of both timers with a given period (R225). -/
def State.tickTimersBy (s : State) (period : Nat) : State :=
  { s with
    dt := (tickTimer period (s.dt, s.dtAcc)).1
    dtAcc := (tickTimer period (s.dt, s.dtAcc)).2
    st := (tickTimer period (s.st, s.stAcc)).1
    stAcc := (tickTimer period (s.st, s.stAcc)).2 }

/-- The tick of both timers at the start of a cycle (R225, R230). -/
def State.tickTimers (s : State) : State := s.tickTimersBy timerPeriod

/-! ## Fetch -/

/-- `FetchWord(pc)`: the word at PC, or FETCH_RANGE when its second byte would lie outside memory (R55). -/
def State.fetchWord (s : State) : Except Fatal Word :=
  if 0xFFE < s.pc.toNat then .error (.fetchRange s.pc)
  else .ok (wordOfBytes (s.memRead s.pc.toNat) (s.memRead (s.pc.toNat + 1)))

/-- `PC <- PC + 2` (R70). -/
def State.advancePc (s : State) : State := s.setPc (s.pc + 2)

/-- The word `w` placed in memory where the next fetch reads it (R55, R60). The ROM load of R256 puts a program's words
there. -/
def State.placeAtPc (s : State) (w : Word) : State :=
  (s.memWrite s.pc.toNat (highByte w)).memWrite (s.pc.toNat + 1) (lowByte w)

/-! ## Host exchange -/

/-- What the host answers this cycle: the first listed turn, or a free one (R234, R237). -/
def State.hostTurn (s : State) : HostTurn :=
  match s.hostTurns with
  | t :: _ => t
  | [] => ⟨Config.keysIn s.hostCalls, Config.quitIn s.hostCalls⟩

/-- Render, handle_key, beep and quit-query, in the order of R230 (R233, R234, R236, R237). The pacing sleep changes nothing
(R238). -/
def State.hostExchange (s : State) : State :=
  { s with
    frameOut := s.fb
    key := s.hostTurn.keysIn
    beepOut := decide (0 < s.st.toNat)
    runEnded := if s.hostTurn.quitIn then true else s.runEnded
    hostTurns := s.hostTurns.tail
    hostCalls := s.hostCalls + 1 }

/-- The byte of the next `draw_byte()`: the first listed byte, or a free one (R15, R239). -/
def State.drawnByte (s : State) : Byte :=
  match s.rndBytes with
  | b :: _ => b
  | [] => Config.rndIn s.draws

/-- The state after one draw. -/
def State.afterDraw (s : State) : State := { s with rndBytes := s.rndBytes.tail, draws := s.draws + 1 }

/-! ## ROM load -/

/-- The bytes of a list stored at `a, a+1, …`, with no check of the address. -/
def State.copyBytes (s : State) (a : Nat) (bs : List Byte) : State :=
  match bs with
  | [] => s
  | b :: bs => State.copyBytes (s.memWrite a b) (a + 1) bs

/-- `load(rom)`, once, before the first cycle (R256). A ROM that does not fit is refused (R257). -/
def State.loadRom (s : State) (rom : Rom) : Host.Outcome State Fault Refusal :=
  if rom.wellFormed then .next (s.copyBytes programBase rom) else .refused (.romTooLarge rom.length)

/-! ## Construction and launch under given parameters (spec/10_state.md R39, R41; spec/70_reset_and_hazards.md R255, R258) -/

/-- Construction: `MEM_INIT` as far as it is given, then the font at 0x050, and the rest as `State.reset` has it. -/
def State.construct (p : Params) : State := (State.reset.copyBytes 0 p.memInit).copyBytes fontBase p.font

/-- Launch: construction and the ROM load. Parameters the spec does not allow are refused (R8). -/
def launch (p : Params) (rom : Rom) : Host.Outcome State Fault Refusal :=
  if p.wellFormed then (State.construct p).loadRom rom else .refused .parametersNotAllowed

end Sys2Proof.Machine
end

