-- ==== Sys2Proof/Machine/Operands.lean ====
section
/-! DEFINITION. The operand forms of the instructions: zero extension (spec/30_encoding.md R73), the register range V0..Vx,
the data address I + k, decimal digits, the glyph address, the sprite's origin and bytes, and the shift's source. -/

namespace Sys2Proof.Machine

/-- `zext_16(nnn)` (R73). -/
def addrOperand (nnn : BitVec 12) : Word := nnn.zeroExtend 16

/-- `nnn + V[0]` (R107): exact, since it is at most 0x10FE. -/
def jumpV0Target (s : State) (nnn : BitVec 12) : Word := addrOperand nnn + (s.getV 0).zeroExtend 16

/-- The base of every data address, `I` as an exact integer (R54). -/
def indexBase (s : State) : Nat := s.i.toNat

/-- The general registers in rising order. -/
def allRegs : List Reg := [0, 1, 2, 3, 4, 5, 6, 7, 8, 9, 10, 11, 12, 13, 14, 15]

/-- The registers V0 to Vx inclusive, ascending (R154, R155). -/
def regsUpTo (x : Reg) : List Reg := allRegs.take (x.val + 1)

/-- The bytes V0 to Vx (R154). -/
def regBytes (s : State) (x : Reg) : List Byte := (regsUpTo x).map s.getV

/-- The decimal digits of a byte, hundreds first (R153). -/
def decimalDigits (b : Byte) : List Byte :=
  [BitVec.ofNat 8 (b.toNat / 100), BitVec.ofNat 8 (b.toNat / 10 % 10), BitVec.ofNat 8 (b.toNat % 10)]

/-- `0x050 + 5 * V[x]`, exact, not masked (R152). -/
def glyphAddr (b : Byte) : Word := BitVec.ofNat 16 (fontBase + 5 * b.toNat)

/-- `I + V[x]` as an exact integer (R151). -/
def indexSum (s : State) (x : Reg) : Nat := s.i.toNat + (s.getV x).toNat

/-- The column of a sprite's origin, `V[x] mod 64` (R171). -/
def spriteCol (s : State) (x : Reg) : Nat := (s.getV x).toNat % 64

/-- The row of a sprite's origin, `V[y] mod 32` (R171). -/
def spriteRow (s : State) (y : Reg) : Nat := (s.getV y).toNat % 32

/-- The `n` bytes of the sprite at `I` (R171). Reads have no side effect (R52), so the rows the bottom edge clips may stand
in the list; drawing does not look at them. -/
def spriteBytes (s : State) (n : BitVec 4) : List Byte :=
  (List.range n.toNat).map fun r => s.memRead (indexBase s + r)

/-- Some byte of the sprite lies past the end of memory (R175). -/
def spriteOutOfRange (s : State) (n : BitVec 4) : Bool :=
  decide (0 < n.toNat ∧ lastAddr < indexBase s + n.toNat - 1)

/-- The source of a shift under each reading (R131). -/
def shiftSource (q : ShiftQuirk) (s : State) (x y : Reg) : Byte :=
  match q with
  | .inPlace => s.getV x
  | .copyVy => s.getV y

end Sys2Proof.Machine
end

