-- ==== Sys2Proof/Machine/Flags.lean ====
section
/-! DEFINITION. The flag computations (spec/10_state.md R22, R23; spec/41_alu.md R120) and the two writes of a flag-writing
instruction in their order (spec/41_alu.md R121). -/

namespace Sys2Proof.Machine

/-- A flag is 0 or 1 (R23). -/
def flagByte (c : Bool) : Byte := if c then 1 else 0

/-- The carry of `a + b` (R120, R128). -/
def carryFlag (a b : Byte) : Byte := flagByte (decide (0xFF < a.toNat + b.toNat))

/-- Not borrow of `a - b` (R120, R129). -/
def noBorrowFlag (a b : Byte) : Byte := flagByte (decide (b.toNat ≤ a.toNat))

/-- Bit 0, shifted out by SHR (R131). -/
def lowBitFlag (a : Byte) : Byte := flagByte (a.getLsbD 0)

/-- Bit 7, shifted out by SHL (R132). -/
def highBitFlag (a : Byte) : Byte := flagByte (a.getLsbD 7)

/-- The index sum exceeds 0xFFF (R151). -/
def indexFlag (sum : Nat) : Byte := flagByte (decide (0xFFF < sum))

/-- The writes of 8XY4, 8XY5 and 8XY7: result, then flag (R121). -/
def State.setResultThenFlag (s : State) (x : Reg) (res flag : Byte) : State := (s.setV x res).setV VF flag

/-- The writes of 8XY6 and 8XYE in the configured order (R121, R131). -/
def State.setShifted (s : State) (o : ShiftXfOrder) (x : Reg) (res flag : Byte) : State :=
  match o with
  | .flagThenResult => (s.setV VF flag).setV x res
  | .resultThenFlag => s.setResultThenFlag x res flag

end Sys2Proof.Machine
end

