-- ==== Sys2Proof/Machine/Alu.lean ====
section
/-! DEFINITION. The meanings of spec/41_alu.md. Operands are read before any write (spec/30_encoding.md R81). -/

namespace Sys2Proof.Machine

/-- `6XNN` LD Vx, nn (R122). -/
def execLdVxNn (x : Reg) (nn : Byte) (s : State) : Host.Outcome State Fault Refusal := .next (s.setV x nn)

/-- `7XNN` ADD Vx, nn: wraps, writes no flag (R123; spec/90_conflicts.md C2). -/
def execAddVxNn (x : Reg) (nn : Byte) (s : State) : Host.Outcome State Fault Refusal := .next (s.setV x (s.getV x + nn))

/-- `8XY0` LD Vx, Vy (R124). -/
def execLdVxVy (x y : Reg) (s : State) : Host.Outcome State Fault Refusal := .next (s.setV x (s.getV y))

/-- `8XY1` OR Vx, Vy: writes no flag (R125, R134). -/
def execOr (x y : Reg) (s : State) : Host.Outcome State Fault Refusal := .next (s.setV x (s.getV x ||| s.getV y))

/-- `8XY2` AND Vx, Vy: writes no flag (R126, R134). -/
def execAnd (x y : Reg) (s : State) : Host.Outcome State Fault Refusal := .next (s.setV x (s.getV x &&& s.getV y))

/-- `8XY3` XOR Vx, Vy: writes no flag (R127, R134). -/
def execXor (x y : Reg) (s : State) : Host.Outcome State Fault Refusal := .next (s.setV x (s.getV x ^^^ s.getV y))

/-- `8XY4` ADD Vx, Vy (R128). -/
def execAddVxVy (x y : Reg) (s : State) : Host.Outcome State Fault Refusal :=
  .next (s.setResultThenFlag x (s.getV x + s.getV y) (carryFlag (s.getV x) (s.getV y)))

/-- `8XY5` SUB Vx, Vy (R129). -/
def execSub (x y : Reg) (s : State) : Host.Outcome State Fault Refusal :=
  .next (s.setResultThenFlag x (s.getV x - s.getV y) (noBorrowFlag (s.getV x) (s.getV y)))

/-- `8XY7` SUBN Vx, Vy (R130). -/
def execSubn (x y : Reg) (s : State) : Host.Outcome State Fault Refusal :=
  .next (s.setResultThenFlag x (s.getV y - s.getV x) (noBorrowFlag (s.getV y) (s.getV x)))

/-- SHR under either reading and either write order (R131). -/
def shiftRight (q : ShiftQuirk) (o : ShiftXfOrder) (x y : Reg) (s : State) : State :=
  s.setShifted o x (shiftSource q s x y >>> 1) (lowBitFlag (shiftSource q s x y))

/-- SHL under either reading and either write order (R132). -/
def shiftLeft (q : ShiftQuirk) (o : ShiftXfOrder) (x y : Reg) (s : State) : State :=
  s.setShifted o x (shiftSource q s x y <<< 1) (highBitFlag (shiftSource q s x y))

/-- `8XY6` SHR Vx, Vy (R131). -/
def execShr (x y : Reg) (s : State) : Host.Outcome State Fault Refusal :=
  .next (shiftRight shiftQuirk shiftXfOrder x y s)

/-- `8XYE` SHL Vx, Vy (R132). -/
def execShl (x y : Reg) (s : State) : Host.Outcome State Fault Refusal :=
  .next (shiftLeft shiftQuirk shiftXfOrder x y s)

/-- `CXNN` RND Vx, nn: one draw, masked (R133). -/
def execRnd (x : Reg) (nn : Byte) (s : State) : Host.Outcome State Fault Refusal :=
  .next (s.afterDraw.setV x (s.drawnByte &&& nn))

end Sys2Proof.Machine
end

