-- ==== Sys2Proof/Machine/ControlFlow.lean ====
section
/-! DEFINITION. The meanings of spec/40_control_flow.md. In each, PC already holds the instruction's address plus 2 (R70). -/

namespace Sys2Proof.Machine

/-- `00EE` RET (R100). -/
def execRet (s : State) : Host.Outcome State Fault Refusal :=
  match s.pop with
  | .ok (a, t) => .next (t.setPc a)
  | .error r => .next (s.raiseFatal r)

/-- `1NNN` JP nnn (R101). -/
def execJp (nnn : BitVec 12) (s : State) : Host.Outcome State Fault Refusal := .next (s.setPc (addrOperand nnn))

/-- CALL with a given STACK_CAPACITY (R102). -/
def callWith (capacity : Nat) (nnn : BitVec 12) (s : State) : State :=
  match s.push capacity s.pc with
  | .ok t => t.setPc (addrOperand nnn)
  | .error r => s.raiseFatal r

/-- `2NNN` CALL nnn (R102). -/
def execCall (nnn : BitVec 12) (s : State) : Host.Outcome State Fault Refusal := .next (callWith stackCapacity nnn s)

/-- `3XNN` SE Vx, nn (R103). -/
def execSeVxNn (x : Reg) (nn : Byte) (s : State) : Host.Outcome State Fault Refusal :=
  .next (s.skipIf (decide (s.getV x = nn)))

/-- `4XNN` SNE Vx, nn (R104). -/
def execSneVxNn (x : Reg) (nn : Byte) (s : State) : Host.Outcome State Fault Refusal :=
  .next (s.skipIf (decide (s.getV x ≠ nn)))

/-- `5XY0` SE Vx, Vy (R105). -/
def execSeVxVy (x y : Reg) (s : State) : Host.Outcome State Fault Refusal :=
  .next (s.skipIf (decide (s.getV x = s.getV y)))

/-- `9XY0` SNE Vx, Vy (R106). -/
def execSneVxVy (x y : Reg) (s : State) : Host.Outcome State Fault Refusal :=
  .next (s.skipIf (decide (s.getV x ≠ s.getV y)))

/-- `BNNN` JP V0, nnn (R107). -/
def execJpV0Nnn (nnn : BitVec 12) (s : State) : Host.Outcome State Fault Refusal := .next (s.setPc (jumpV0Target s nnn))

end Sys2Proof.Machine
end

