-- ==== Sys2Proof/Machine/Display.lean ====
section
/-! DEFINITION. The meanings of spec/43_display.md. A drawing is a pair: the frame so far, and whether a lit sprite bit has met
a lit pixel. -/

namespace Sys2Proof.Machine

/-- One sprite bit at row `y`, column `x`: a 1 flips the pixel, and hits if the pixel was 1 (R171). -/
def drawBit (lit : Bool) (y x : Nat) (d : Frame × Bool) : Frame × Bool :=
  if lit then (d.1.flip y x, d.2 || d.1.pixel y x) else d

/-- The columns `cols` of one sprite byte, most significant bit first; the first one past the right edge ends the row
(R171). -/
def drawCols (b : Byte) (y sx : Nat) (cols : List Nat) (d : Frame × Bool) : Frame × Bool :=
  match cols with
  | [] => d
  | c :: cols => if 63 < sx + c then d else drawCols b y sx cols (drawBit (b.getLsbD (7 - c)) y (sx + c) d)

/-- The sprite bytes from row `y` down; the first row past the bottom edge ends the drawing (R171). -/
def drawRows (sx y : Nat) (bytes : List Byte) (d : Frame × Bool) : Frame × Bool :=
  match bytes with
  | [] => d
  | b :: bytes => if 31 < y then d else drawRows sx (y + 1) bytes (drawCols b y sx (List.range 8) d)

/-- The drawing of a sprite on the state's framebuffer (R171, R172). -/
def spriteDrawing (s : State) (x y : Reg) (n : BitVec 4) : Frame × Bool :=
  drawRows (spriteCol s x) (spriteRow s y) (spriteBytes s n) (s.fb, false)

/-- `00E0` CLS (R170). -/
def execCls (s : State) : Host.Outcome State Fault Refusal := .next (s.setFb Frame.clear)

/-- `DXYN` DRW Vx, Vy, n: MEM_RANGE before any write if some sprite byte lies past memory, else the sprite drawn and VF the
collision (R171, R175). The origin is read before VF is written. -/
def execDrw (x y : Reg) (n : BitVec 4) (s : State) : Host.Outcome State Fault Refusal :=
  if spriteOutOfRange s n then .next (s.raiseFatal (.memRange s.instrPc (max (indexBase s) 0x1000)))
  else .next ((s.setFb (spriteDrawing s x y n).1).setV VF (flagByte (spriteDrawing s x y n).2))

end Sys2Proof.Machine
end

