-- ==== Sys2Proof/Machine/IndexMemory.lean ====
section
/-! DEFINITION. The meanings of spec/42_index_memory.md. FX33, FX55 and FX65 leave I unchanged (R156). -/

namespace Sys2Proof.Machine

/-- `ANNN` LD I, nnn (R150). -/
def execLdINnn (nnn : BitVec 12) (s : State) : Host.Outcome State Fault Refusal := .next (s.setI (addrOperand nnn))

/-- `FX1E` ADD I, Vx: the flag compares the exact sum with 0xFFF, I wraps at 16 bits (R151). -/
def execAddIVx (x : Reg) (s : State) : Host.Outcome State Fault Refusal :=
  .next ((s.setV VF (indexFlag (indexSum s x))).setI (BitVec.ofNat 16 (indexSum s x)))

/-- `FX29` LD F, Vx (R152). -/
def execLdFVx (x : Reg) (s : State) : Host.Outcome State Fault Refusal := .next (s.setI (glyphAddr (s.getV x)))

/-- `FX33` LD B, Vx (R153). -/
def execLdBVx (x : Reg) (s : State) : Host.Outcome State Fault Refusal :=
  .next (s.storeBytes (indexBase s) (decimalDigits (s.getV x)))

/-- `FX55` LD [I], Vx (R154). -/
def execLdMemVx (x : Reg) (s : State) : Host.Outcome State Fault Refusal :=
  .next (s.storeBytes (indexBase s) (regBytes s x))

/-- `FX65` LD Vx, [I] (R155). -/
def execLdVxMem (x : Reg) (s : State) : Host.Outcome State Fault Refusal :=
  .next (s.loadRegs (indexBase s) (regsUpTo x))

end Sys2Proof.Machine
end

