-- ==== Sys2Proof/Machine/KeypadTimers.lean ====
section
/-! DEFINITION. The meanings of spec/44_keypad_timers.md. -/

namespace Sys2Proof.Machine

/-- A key skip: KEY_RANGE for a code above 0xF, else skip if the key's level is `level` (R190, R191, R196). -/
def keySkip (x : Reg) (level : Bool) (s : State) : State :=
  if 0xF < (s.getV x).toNat then s.raiseFatal (.keyRange s.instrPc (s.getV x))
  else s.skipIf (s.keyPressed (s.getV x).toNat == level)

/-- `EX9E` SKP Vx (R190). -/
def execSkp (x : Reg) (s : State) : Host.Outcome State Fault Refusal := .next (keySkip x true s)

/-- `EXA1` SKNP Vx (R191). -/
def execSknp (x : Reg) (s : State) : Host.Outcome State Fault Refusal := .next (keySkip x false s)

/-- `FX07` LD Vx, DT (R193). -/
def execLdVxDt (x : Reg) (s : State) : Host.Outcome State Fault Refusal := .next (s.setV x s.dt)

/-- `FX0A` LD Vx, K: the lowest pressed key, or PC back to this instruction (R192, R197). -/
def execLdVxK (x : Reg) (s : State) : Host.Outcome State Fault Refusal :=
  match s.lowestPressed with
  | some k => .next (s.setV x (BitVec.ofNat 8 k))
  | none => .next (s.setPc (s.pc - 2))

/-- `FX15` LD DT, Vx: the accumulator stays (R194). -/
def execLdDtVx (x : Reg) (s : State) : Host.Outcome State Fault Refusal := .next (s.setDt (s.getV x))

/-- `FX18` LD ST, Vx: the accumulator stays (R195). -/
def execLdStVx (x : Reg) (s : State) : Host.Outcome State Fault Refusal := .next (s.setSt (s.getV x))

end Sys2Proof.Machine
end

