-- ==== Sys2Proof/Machine/Cycle.lean ====
section
/-! DEFINITION. One cycle (spec/60_exceptions.md R230): tick both timers, fetch and execute one instruction, exchange with
the host. It takes the timer period and the execution of an instruction as arguments, so that the step of this hardware and
the step under any parameters (spec/10_state.md R39) are the same cycle. -/

namespace Sys2Proof.Machine

/-- How one instruction is executed. -/
abbrev Execution := Instr → State → Host.Outcome State Fault Refusal

/-- The effect of an unrecognised word beyond the fetch advance: none (spec/30_encoding.md R77). -/
def execUnrecognised (s : State) : Host.Outcome State Fault Refusal := .next s

/-- Decode a fetched word and execute it (R76, R77). -/
def execWord (ex : Execution) (w : Word) (s : State) : Host.Outcome State Fault Refusal :=
  match decodeWord w with
  | some i => ex i s
  | none => execUnrecognised s

/-- The rest of the cycle after the instruction: the host exchange, unless a fatal ended the cycle (R212, R230). -/
def finishCycle (o : Host.Outcome State Fault Refusal) : Host.Outcome State Fault Refusal :=
  match o with
  | .next s => if s.fault.isSome then .next s else .next s.hostExchange
  | .fault r => .fault r
  | .refused r => .refused r

/-- Fetch and execute one instruction, then the rest of the cycle (R70, R230). -/
def runInstruction (ex : Execution) (s : State) : Host.Outcome State Fault Refusal :=
  match s.fetchWord with
  | .ok w => finishCycle (execWord ex w s.advancePc)
  | .error r => .next (s.raiseFatal r)

/-- One cycle. A state with FAULT set or RUN_ENDED true has no further cycle (R230). -/
def cycle (period : Nat) (ex : Execution) (s : State) : Host.Outcome State Fault Refusal :=
  match s.fault with
  | some r => .fault (.halted r)
  | none => if s.runEnded then .fault .runEnded else runInstruction ex (s.tickTimersBy period)

/-! ## Under given parameters (spec/10_state.md R39) -/

/-- Execute an instruction under given parameters. Only CALL (STACK_CAPACITY) and the shifts (SHIFT_QUIRK, SHIFT_XF_ORDER) read
one. -/
def execWith (p : Params) (i : Instr) (s : State) : Host.Outcome State Fault Refusal :=
  match i with
  | .call nnn => .next (callWith p.stackCapacity nnn s)
  | .shr x y => .next (shiftRight p.shiftQuirk p.shiftXfOrder x y s)
  | .shl x y => .next (shiftLeft p.shiftQuirk p.shiftXfOrder x y s)
  | .cls | .ret | .jp _ | .seVxNn _ _ | .sneVxNn _ _ | .seVxVy _ _ | .ldVxNn _ _ | .addVxNn _ _ | .ldVxVy _ _ | .or _ _
  | .and _ _ | .xor _ _ | .addVxVy _ _ | .sub _ _ | .subn _ _ | .sneVxVy _ _ | .ldINnn _ | .jpV0Nnn _ | .rnd _ _
  | .drw _ _ _ | .skp _ | .sknp _ | .ldVxDt _ | .ldVxK _ | .ldDtVx _ | .ldStVx _ | .addIVx _ | .ldFVx _ | .ldBVx _
  | .ldMemVx _ | .ldVxMem _ => exec i s

/-- One step of the machine under given parameters (R39). `MEM_INIT` and `FONT` enter at construction only, so the step reads
them nowhere but in memory. -/
def stepWith (p : Params) (s : State) : Host.Outcome State Fault Refusal := cycle (timerPeriodOf p) (execWith p) s

end Sys2Proof.Machine
end

