-- ==== Sys2Proof/Machine/Step.lean ====
section
/-! DEFINITION. The machine's step is one cycle (spec/60_exceptions.md R230). -/

namespace Sys2Proof.Machine

/-- One step of the machine, at the parameters of this hardware. -/
def step (s : State) : Host.Outcome State Fault Refusal := cycle timerPeriod exec s

/-- `s` with one instruction word stored where the step fetches its next instruction, which is what the ROM load of R256 does
for a program's first word. In a state with no further cycle, or with PC above 0xFFE, no byte in memory makes the step
run. -/
def State.withFetchWord (s : State) (nbits w : Nat) : State := s.placeAtPc (tableWord nbits w)

end Sys2Proof.Machine
end

