-- ==== Sys2Proof/Safety.lean ====
section
/-! DEFINITION. The terms claims are made in: which states have a cycle and are safe, the invariant between cycles, what an
instruction leaves unchanged, and which sprite bits fall on which pixels. -/

namespace Sys2Proof

/-- A row of the opcode map seen from outside: every word that matches it decodes to the instruction `build` reads from
it (spec/30_encoding.md R75). -/
def Encoded (code mask : Word) (build : Word → Instr) : Prop :=
  ∀ w : Word, w &&& mask = code → decodeWord w = some (build w)

/-- The mask and match columns of the opcode map as the spec lists them (spec/30_encoding.md R75), written apart from the
decoder's own table. -/
def specRows : List (Word × Word) := [
  (0xFFFF, 0x00E0), (0xFFFF, 0x00EE), (0xF000, 0x1000), (0xF000, 0x2000), (0xF000, 0x3000), (0xF000, 0x4000),
  (0xF00F, 0x5000), (0xF000, 0x6000), (0xF000, 0x7000), (0xF00F, 0x8000), (0xF00F, 0x8001), (0xF00F, 0x8002),
  (0xF00F, 0x8003), (0xF00F, 0x8004), (0xF00F, 0x8005), (0xF00F, 0x8006), (0xF00F, 0x8007), (0xF00F, 0x800E),
  (0xF00F, 0x9000), (0xF000, 0xA000), (0xF000, 0xB000), (0xF000, 0xC000), (0xF000, 0xD000), (0xF0FF, 0xE09E),
  (0xF0FF, 0xE0A1), (0xF0FF, 0xF007), (0xF0FF, 0xF00A), (0xF0FF, 0xF015), (0xF0FF, 0xF018), (0xF0FF, 0xF01E),
  (0xF0FF, 0xF029), (0xF0FF, 0xF033), (0xF0FF, 0xF055), (0xF0FF, 0xF065)]

namespace Machine

/-- No fatal condition has been taken: the only kind of state a claim about a program may end in (spec/60_exceptions.md R212,
R231). -/
def State.Safe (s : State) : Prop := s.fault = none

/-- The state has a further cycle (spec/60_exceptions.md R230). -/
def State.Running (s : State) : Prop := s.fault = none ∧ s.runEnded = false

/-- The state has a cycle, and that cycle's fetch reads exactly the instruction `i` at PC (spec/20_memory.md R55,
spec/30_encoding.md R70). -/
def State.Fetches (s : State) (i : Instr) : Prop :=
  s.Running ∧ s.pc.toNat ≤ 0xFFE ∧ decodeBytes [s.memRead s.pc.toNat, s.memRead (s.pc.toNat + 1)] = .ok (i, [])

/-- What holds between cycles: memory is canonical, the accumulators lie below the period (spec/10_state.md R32), the
stack's depth is at most its capacity (R29), PC and the return addresses held never come near 16 bits (R27), and the frame presented is the framebuffer (R176). -/
structure State.Inv (s : State) : Prop where
  /-- memory is in canonical form -/
  mem : s.mem.wf
  /-- `DT_ACC` is in [0, TIMER_PERIOD-1] -/
  dtAcc : s.dtAcc < timerPeriod
  /-- `ST_ACC` is in [0, TIMER_PERIOD-1] -/
  stAcc : s.stAcc < timerPeriod
  /-- the greatest PC is the greatest BNNN target -/
  pc : s.pc.toNat ≤ 0x10FE
  /-- no more return addresses are held than STACK_CAPACITY -/
  depth : s.sp.val ≤ stackCapacity
  /-- every return address held is a PC after a fetch -/
  stack : ∀ k, k < s.sp.val → (s.slot k).toNat ≤ 0x1000
  /-- `frame_out` is FB -/
  frame : s.frameOut = s.fb

/-- Every byte of memory reads as before. -/
def SameMemory (s t : State) : Prop := ∀ a, t.memRead a = s.memRead a

/-- Every byte of memory outside the `n` bytes at `a` reads as before. -/
def SameMemoryOutside (s t : State) (a n : Nat) : Prop := ∀ b, (b < a ∨ a + n ≤ b) → t.memRead b = s.memRead b

/-- Every general register outside the list is unchanged. -/
def SameRegsBut (ws : List Reg) (s t : State) : Prop := ∀ r, r ∉ ws → t.getV r = s.getV r

/-- Only the general registers of the list may change: every other general register, every byte of memory and every other
field of the state is as before. -/
def OnlyRegs (ws : List Reg) (s t : State) : Prop :=
  SameRegsBut ws s t ∧ SameMemory s t ∧ t = { s with v := t.v }

/-- Only PC may change. -/
def OnlyPc (s t : State) : Prop := SameRegsBut [] s t ∧ SameMemory s t ∧ t = { s with pc := t.pc }

/-- DXYN draws a lit sprite bit on the pixel in row `r`, column `c`: the sprite's byte for that row has a 1 in that column,
counted from the origin `(V[x] mod 64, V[y] mod 32)`, most significant bit first (spec/43_display.md R171, R172). -/
def State.drawsOn (s : State) (x y : Reg) (n : BitVec 4) (r c : Nat) : Prop :=
  (s.getV y).toNat % 32 ≤ r ∧ r < (s.getV y).toNat % 32 + n.toNat ∧ r ≤ 31 ∧
  (s.getV x).toNat % 64 ≤ c ∧ c < (s.getV x).toNat % 64 + 8 ∧ c ≤ 63 ∧
  (s.memRead (s.i.toNat + (r - (s.getV y).toNat % 32))).getLsbD (7 - (c - (s.getV x).toNat % 64)) = true

end Machine

end Sys2Proof
end

