-- ==== Sys2Proof/Certificates/Slice0/Obligations.lean ====
section
/-! DEFINITION. The statements for the provers, from the numbered rules of spec/. In a statement about an instruction, `s` is
the state after the fetch advance (spec/30_encoding.md R70): PC is the instruction's address plus 2, and `s.instrPc` is that
address. -/

open Sys2Proof Sys2Proof.Machine

/-! ## Encoding and decoding -/

/-- O1. Decoding gives back every encoded instruction, as a word and as bytes followed by any other bytes
(spec/30_encoding.md sections 2 and 3, spec/20_memory.md section 5). -/
def Obligations.DecodeOfEncode : Prop :=
  ∀ i : Instr, decodeWord (encode i) = some i ∧ ∀ rest, decodeBytes (encodeBytes i ++ rest) = .ok (i, rest)

/-- O2. A word that decodes to an instruction is that instruction's encoding: decoding is exact, no bit of the word is
ignored (spec/30_encoding.md sections 2 to 4; the exactness of R78 is the spec's decision D12, left open in item E1 of
spec/93_implementation_defined.md, log entry 8). -/
def Obligations.EncodeOfDecode : Prop := ∀ (w : Word) (i : Instr), decodeWord w = some i → encode i = w

/-- O3. A word is recognised exactly when it matches one of the 34 (mask, match) pairs of the opcode map, and no word matches
two of them (spec/30_encoding.md section 3; the spec marks R76 as derived). -/
def Obligations.RecognisedWordsMatchOneRow : Prop :=
  ∀ w : Word, ((decodeWord w).isSome = true ↔ ∃ p ∈ specRows, w &&& p.1 = p.2) ∧
    ∀ p ∈ specRows, ∀ q ∈ specRows, w &&& p.1 = p.2 → w &&& q.1 = q.2 → p = q

/-- O4. The unrecognised words, family by family (spec/30_encoding.md section 4, whose exactness is the spec's decision
D12). -/
def Obligations.UnrecognisedWordsByFamily : Prop :=
  ∀ w : Word, decodeWord w = none ↔
    (w.extractLsb' 12 4 = 0x0 ∧ w ≠ 0x00E0 ∧ w ≠ 0x00EE) ∨
    (w.extractLsb' 12 4 = 0x5 ∧ fieldN w ≠ 0) ∨
    (w.extractLsb' 12 4 = 0x8 ∧ fieldN w ∈ [0x8#4, 0x9#4, 0xA#4, 0xB#4, 0xC#4, 0xD#4, 0xF#4]) ∨
    (w.extractLsb' 12 4 = 0x9 ∧ fieldN w ≠ 0) ∨
    (w.extractLsb' 12 4 = 0xE ∧ fieldNN w ∉ [0x9E#8, 0xA1#8]) ∨
    (w.extractLsb' 12 4 = 0xF ∧
      fieldNN w ∉ [0x07#8, 0x0A#8, 0x15#8, 0x18#8, 0x1E#8, 0x29#8, 0x33#8, 0x55#8, 0x65#8])

/-- O5. Words written out from the spec's examples decode to the instructions they stand for. -/
def Obligations.ExampleWordsDecode : Prop :=
  decodeWord 0x8014 = some (.addVxVy 0 1) ∧ decodeWord 0xD015 = some (.drw 0 1 5) ∧
  decodeWord 0xA050 = some (.ldINnn 0x050) ∧ decodeWord 0x3305 = some (.seVxNn 3 0x05) ∧
  decodeWord 0x830E = some (.shl 3 0) ∧ decodeWord 0xF265 = some (.ldVxMem 2) ∧ decodeWord 0xE49E = some (.skp 4) ∧
  decodeWord 0x00EE = some .ret

/-! ## The cycle -/

/-- O6. A step runs the decoded instruction: when the bytes at PC decode to `i`, the step ticks the timers, advances PC by 2,
executes `i`, and exchanges with the host unless `i` raised a fatal. -/
def Obligations.StepRunsDecodedInstruction : Prop :=
  ∀ (s : State) (i : Instr), s.Running → s.pc.toNat ≤ 0xFFE →
    decodeBytes [s.memRead s.pc.toNat, s.memRead (s.pc.toNat + 1)] = .ok (i, []) →
    step s = finishCycle (exec i (s.tickTimers.setPc (s.pc + 2))) ∧
    ∀ t, exec i (s.tickTimers.setPc (s.pc + 2)) = .next t →
      step s = .next (if t.fault.isSome then t else t.hostExchange)

/-- O7. An unrecognised word is a no-op: the cycle only ticks the timers, advances PC by 2 and exchanges with the host
(spec/30_encoding.md section 4; that near-miss words are among them is the spec's decision D12, log entry 8). -/
def Obligations.UnrecognisedWordIsNoOp : Prop :=
  ∀ s : State, s.Running → s.pc.toNat ≤ 0xFFE →
    decodeWord (wordOfBytes (s.memRead s.pc.toNat) (s.memRead (s.pc.toNat + 1))) = none →
    step s = .next (s.tickTimers.setPc (s.pc + 2)).hostExchange

/-- O8. A fetch with PC above 0xFFE raises FETCH_RANGE with that PC, after the timers have ticked and before PC advances; the
rest of the cycle does not run (spec/20_memory.md section 2; the spec's decision D4). -/
def Obligations.FetchPastMemoryFaults : Prop :=
  ∀ s : State, s.Running → 0xFFE < s.pc.toNat → step s = .next (s.tickTimers.raiseFatal (.fetchRange s.pc))

/-- O9. What the host exchange does: render presents FB, handle_key replaces KEY, beep passes `ST > 0`, a true quit answer ends
the run; nothing else of the core changes (spec/60_exceptions.md sections 4 and 5). That the answers are the first one that
hostTurns lists, that the list then loses it and that hostCalls counts the call are the model's own convention, log entry 3;
that the ports keep their values as fields is log entry 9. -/
def Obligations.HostExchangeEffect : Prop :=
  ∀ s : State, s.hostExchange.frameOut = s.fb ∧ s.hostExchange.key = s.hostTurn.keysIn ∧
    (s.hostExchange.beepOut = true ↔ 0 < s.st.toNat) ∧
    (s.hostExchange.runEnded = true ↔ s.hostTurn.quitIn = true ∨ s.runEnded = true) ∧
    (∀ turn rest, s.hostTurns = turn :: rest → s.hostTurn = turn ∧ s.hostExchange.hostTurns = rest) ∧
    s.hostExchange = { s with
      frameOut := s.hostExchange.frameOut, key := s.hostExchange.key, beepOut := s.hostExchange.beepOut,
      runEnded := s.hostExchange.runEnded, hostTurns := s.hostTurns.tail, hostCalls := s.hostCalls + 1 }

/-- O10. A state with FAULT set or RUN_ENDED true has no further cycle (spec/60_exceptions.md section 5). That the step then
answers the fault halted or runEnded is the model's way to say it, log entry 7. -/
def Obligations.TerminalStatesHaveNoCycle : Prop :=
  (∀ (s : State) (r : Fatal), s.fault = some r → step s = .fault (.halted r)) ∧
  (∀ s : State, s.fault = none → s.runEnded = true → step s = .fault .runEnded)

/-- O11. Raising a fatal sets FAULT and nothing else, and it ends the cycle at once: when a cycle leaves FAULT set, there was no
render, no handle_key, no beep and no quit-query in it, and there is no further cycle (spec/60_exceptions.md section 1; that
nothing else changes is R215, which the spec marks as derived). The clauses on hostTurns and hostCalls are about the model's
own fields, log entry 3, the ports' fields are log entry 9, and the outcome halted is log entry 7. -/
def Obligations.FatalEndsTheCycle : Prop :=
  (∀ (s : State) (r : Fatal), s.raiseFatal r = { s with fault := some r }) ∧
  ∀ (s t : State) (r : Fatal), step s = .next t → t.fault = some r →
    t.frameOut = s.frameOut ∧ t.key = s.key ∧ t.beepOut = s.beepOut ∧ t.runEnded = s.runEnded ∧
    t.hostTurns = s.hostTurns ∧ t.hostCalls = s.hostCalls ∧ step t = .fault (.halted r)

/-- O12. A cycle that raises no fatal completes: the host's keys are in KEY, the frame presented is FB, the beep level is
`ST > 0`, and RUN_ENDED is the quit answer (spec/60_exceptions.md sections 4 and 5). That hostTurn is the answer used and that
hostTurns loses its first entry are the model's own convention, log entry 3. -/
def Obligations.CompletedCycleExchangesWithHost : Prop :=
  ∀ s t : State, step s = .next t → t.fault = none →
    t.key = s.hostTurn.keysIn ∧ t.frameOut = t.fb ∧ (t.beepOut = true ↔ 0 < t.st.toNat) ∧
    t.runEnded = s.hostTurn.quitIn ∧ t.hostTurns = s.hostTurns.tail

/-! ## Timers -/

/-- O13. The tick of one timer, for any period; the tick of both with TIMER_PERIOD; and every cycle starts with it
(spec/60_exceptions.md section 3). That TIMER_PERIOD is at least 1 is spec/00_scope.md section 3, the spec's decision D13,
and the model's log entry 10. -/
def Obligations.TimerTick : Prop :=
  (∀ (p : Nat) (c : Byte) (a : Nat), 0 < c.toNat → a + 1 = p → tickTimer p (c, a) = (c - 1, 0)) ∧
  (∀ (p : Nat) (c : Byte) (a : Nat), 0 < c.toNat → a + 1 ≠ p → tickTimer p (c, a) = (c, a + 1)) ∧
  (∀ (p a : Nat), tickTimer p (0, a) = (0, a)) ∧
  (∀ s : State, (s.tickTimers.dt, s.tickTimers.dtAcc) = tickTimer timerPeriod (s.dt, s.dtAcc) ∧
    (s.tickTimers.st, s.tickTimers.stAcc) = tickTimer timerPeriod (s.st, s.stAcc) ∧
    s.tickTimers = { s with
      dt := s.tickTimers.dt, dtAcc := s.tickTimers.dtAcc, st := s.tickTimers.st, stAcc := s.tickTimers.stAcc }) ∧
  1 ≤ timerPeriod ∧ ∀ s : State, s.Running → step s = runInstruction exec s.tickTimers

/-- O14. Timer readback: from counter `v` and accumulator `a`, the counter first reads `v - j` after
`(period - a) + (j - 1) * period` ticks, for `1 ≤ j ≤ v`, and after it has reached 0 it stays 0 (spec/44_keypad_timers.md
section 3; the spec marks R198 as derived). -/
def Obligations.TimerReadback : Prop :=
  ∀ (p a : Nat) (v : Byte) (j : Nat), a < p → 1 ≤ j → j ≤ v.toNat →
    (tickTimer p)^[(p - a) + (j - 1) * p] (v, a) = (v - BitVec.ofNat 8 j, 0) ∧
    (∀ k, k < (p - a) + (j - 1) * p → v.toNat - j < ((tickTimer p)^[k] (v, a)).1.toNat) ∧
    (j = v.toNat → ∀ k, (p - a) + (j - 1) * p ≤ k → ((tickTimer p)^[k] (v, a)).1 = 0)

/-! ## Construction, launch and the invariant -/

/-- O15. The state after construction (spec/10_state.md section 12; for the stack, keys, framebuffer, accumulators, FAULT,
RUN_ENDED and `MEM_INIT` the spec's decisions D15 to D19, D21, D24; the font's bytes are log entry 2). -/
def Obligations.ConstructionState : Prop :=
  (∀ r, State.reset.getV r = 0) ∧ State.reset.i = 0 ∧ State.reset.pc = 0x200 ∧ State.reset.dt = 0 ∧ State.reset.st = 0 ∧
  State.reset.dtAcc = 0 ∧ State.reset.stAcc = 0 ∧ State.reset.sp.val = 0 ∧
  (∀ k, k < Config.stackSlots → State.reset.slot k = 0) ∧ (∀ k, k < 16 → State.reset.keyPressed k = false) ∧
  (∀ r c, r < 32 → c < 64 → State.reset.fb.pixel r c = false) ∧
  (∀ k, k < 80 → some (State.reset.memRead (0x050 + k)) = font[k]?) ∧
  (∀ a, a < 0x050 ∨ 0x0A0 ≤ a → State.reset.memRead a = Config.memInit a) ∧
  State.reset.fault = none ∧ State.reset.runEnded = false

/-- O16. The ROM load writes the ROM at 0x200 and touches nothing else. -/
def Obligations.RomLoadWritesRom : Prop :=
  ∀ (s : State) (rom : Rom), rom.wellFormed = true → ∃ t, s.loadRom rom = .next t ∧
    (∀ k (h : k < rom.length), t.memRead (0x200 + k) = rom[k]) ∧ SameMemoryOutside s t 0x200 rom.length ∧
    t = { s with mem := t.mem } ∧ (rom = [] → t = s)

/-- O17. A ROM of more than 3584 bytes is refused, a shorter one is not (spec/70_reset_and_hazards.md section 1; the refusal is
the spec's decision D23). -/
def Obligations.RomSizeLimit : Prop :=
  ∀ (s : State) (rom : Rom), (3584 < rom.length → s.loadRom rom = .refused (.romTooLarge rom.length)) ∧
    (rom.length ≤ 3584 → ∃ t, s.loadRom rom = .next t)

/-- O18. The invariant holds after construction. The zero accumulators and the clear framebuffer are the spec's decisions D19
and D16 (log entry 14), frame_out equal to FB rests on the reset value that log entry 9 chooses for the port, and the
canonical form of memory is the model's own (log entry 1). -/
def Obligations.ConstructionStateMeetsInvariant : Prop := State.reset.Inv

/-- O19. Every step keeps the invariant: memory stays canonical, the accumulators stay below the period, the depth of the stack
stays at most its capacity, PC and the return addresses held never wrap, and the frame presented is the framebuffer. The
capacity is the spec's decisions D1 and D2 (log entry 6), the bounds on PC and return addresses are R27 (the spec marks it as
derived, and its decision D4), the bound on the accumulators is R32 (marked as derived; the period is log entry 10), the
canonical form of memory is the model's own (log entry 1), and the port kept as a field is log entry 9. -/
def Obligations.StepKeepsInvariant : Prop := ∀ s t : State, s.Inv → step s = .next t → t.Inv

/-- O20. Loading a ROM that fits keeps the invariant. The load changes memory only, so what this says is that it keeps the
model's own canonical form of memory, log entry 1, of which the spec does not speak. -/
def Obligations.RomLoadKeepsInvariant : Prop :=
  ∀ (s t : State) (rom : Rom), s.Inv → s.loadRom rom = .next t → t.Inv

/-! ## Control flow -/

/-- O21. 00EE pops the last return address into PC, and raises STACK_UNDERFLOW on an empty stack. The slot keeps its value
(spec/40_control_flow.md section 2, spec/10_state.md section 6). That the fault records the address of the instruction is the
spec's decision D22, and that it is taken in a next state log entry 7. -/
def Obligations.ReturnPopsPc : Prop :=
  Encoded 0x00EE 0xFFFF (fun _ => .ret) ∧
  (∀ s : State, s.sp.val ≠ 0 → ∃ t, exec .ret s = .next t ∧ t.pc = s.slot (s.sp.val - 1) ∧ t.sp.val + 1 = s.sp.val ∧
    SameRegsBut [] s t ∧ SameMemory s t ∧ t = { s with pc := t.pc, sp := t.sp }) ∧
  (∀ s : State, s.sp.val = 0 → exec .ret s = .next (s.raiseFatal (.stackUnderflow s.instrPc)))

/-- O22. 1NNN jumps to `nnn`, BNNN to `nnn + V0`, exactly. -/
def Obligations.JumpsSetPc : Prop :=
  Encoded 0x1000 0xF000 (fun w => .jp (fieldNNN w)) ∧ Encoded 0xB000 0xF000 (fun w => .jpV0Nnn (fieldNNN w)) ∧
  (∀ (nnn : BitVec 12) (s : State), ∃ t, exec (.jp nnn) s = .next t ∧ t.pc.toNat = nnn.toNat ∧ OnlyPc s t) ∧
  (∀ (nnn : BitVec 12) (s : State), ∃ t, exec (.jpV0Nnn nnn) s = .next t ∧
    t.pc.toNat = nnn.toNat + (s.getV 0).toNat ∧ OnlyPc s t)

/-- O23. 2NNN with room on the stack pushes the address after it and jumps (spec/40_control_flow.md section 2; the capacity
16 is the spec's decision D1). -/
def Obligations.CallPushesReturnAddress : Prop :=
  Encoded 0x2000 0xF000 (fun w => .call (fieldNNN w)) ∧
  ∀ (nnn : BitVec 12) (s : State), s.sp.val < 16 → ∃ t, exec (.call nnn) s = .next t ∧
    t.pc.toNat = nnn.toNat ∧ t.slot s.sp.val = s.pc ∧ t.sp.val = s.sp.val + 1 ∧
    (∀ k, k ≠ s.sp.val → t.slot k = s.slot k) ∧ SameRegsBut [] s t ∧ SameMemory s t ∧
    t = { s with pc := t.pc, stack := t.stack, sp := t.sp }

/-- O24. 2NNN with 16 return addresses held raises STACK_OVERFLOW and changes nothing else (the spec's decisions D1, D2, log
entry 6; the recorded address is its decision D22, and that it is taken in a next state log entry 7). A depth above 16, which
no run of this hardware reaches, faults alike. -/
def Obligations.CallOnFullStackFaults : Prop :=
  ∀ (nnn : BitVec 12) (s : State), 16 ≤ s.sp.val →
    exec (.call nnn) s = .next (s.raiseFatal (.stackOverflow s.instrPc))

/-- O25. A call immediately followed by a return restores PC and the depth: whatever the state, the return leaves PC at the
instruction after the call site. -/
def Obligations.CallThenReturnRestoresPc : Prop :=
  ∀ (nnn : BitVec 12) (s t u : State), s.sp.val < 16 → exec (.call nnn) s = .next t →
    u.stack = t.stack → u.sp = t.sp → ∃ v, exec .ret u = .next v ∧ v.pc = s.pc ∧ v.sp = s.sp

/-- O26. The four register skips add 2 to PC exactly when their comparison holds, and change nothing else. -/
def Obligations.SkipsOnComparison : Prop :=
  Encoded 0x3000 0xF000 (fun w => .seVxNn (fieldX w) (fieldNN w)) ∧
  Encoded 0x4000 0xF000 (fun w => .sneVxNn (fieldX w) (fieldNN w)) ∧
  Encoded 0x5000 0xF00F (fun w => .seVxVy (fieldX w) (fieldY w)) ∧
  Encoded 0x9000 0xF00F (fun w => .sneVxVy (fieldX w) (fieldY w)) ∧
  (∀ (x : Reg) (nn : Byte) (s : State), ∃ t, exec (.seVxNn x nn) s = .next t ∧
    t.pc = (if s.getV x = nn then s.pc + 2 else s.pc) ∧ OnlyPc s t) ∧
  (∀ (x : Reg) (nn : Byte) (s : State), ∃ t, exec (.sneVxNn x nn) s = .next t ∧
    t.pc = (if s.getV x = nn then s.pc else s.pc + 2) ∧ OnlyPc s t) ∧
  (∀ (x y : Reg) (s : State), ∃ t, exec (.seVxVy x y) s = .next t ∧
    t.pc = (if s.getV x = s.getV y then s.pc + 2 else s.pc) ∧ OnlyPc s t) ∧
  (∀ (x y : Reg) (s : State), ∃ t, exec (.sneVxVy x y) s = .next t ∧
    t.pc = (if s.getV x = s.getV y then s.pc else s.pc + 2) ∧ OnlyPc s t)

/-! ## Register, arithmetic and logic -/

/-- O27. 6XNN loads `nn`, 7XNN adds it modulo 256 with no flag, 8XY0 copies; nothing but V[x] changes. -/
def Obligations.LoadAndAddImmediate : Prop :=
  Encoded 0x6000 0xF000 (fun w => .ldVxNn (fieldX w) (fieldNN w)) ∧
  Encoded 0x7000 0xF000 (fun w => .addVxNn (fieldX w) (fieldNN w)) ∧
  Encoded 0x8000 0xF00F (fun w => .ldVxVy (fieldX w) (fieldY w)) ∧
  (∀ (x : Reg) (nn : Byte) (s : State), ∃ t, exec (.ldVxNn x nn) s = .next t ∧ t.getV x = nn ∧ OnlyRegs [x] s t) ∧
  (∀ (x : Reg) (nn : Byte) (s : State), ∃ t, exec (.addVxNn x nn) s = .next t ∧
    (t.getV x).toNat = ((s.getV x).toNat + nn.toNat) % 256 ∧ OnlyRegs [x] s t) ∧
  (∀ (x y : Reg) (s : State), ∃ t, exec (.ldVxVy x y) s = .next t ∧ t.getV x = s.getV y ∧ OnlyRegs [x] s t)

/-- O28. 8XY1, 8XY2 and 8XY3 are the bitwise operations, bit by bit; nothing but V[x] changes, so VF is unchanged unless
x = F. -/
def Obligations.LogicOperations : Prop :=
  Encoded 0x8001 0xF00F (fun w => .or (fieldX w) (fieldY w)) ∧
  Encoded 0x8002 0xF00F (fun w => .and (fieldX w) (fieldY w)) ∧
  Encoded 0x8003 0xF00F (fun w => .xor (fieldX w) (fieldY w)) ∧
  (∀ (x y : Reg) (s : State), ∃ t, exec (.or x y) s = .next t ∧
    (∀ k, (t.getV x).getLsbD k = ((s.getV x).getLsbD k || (s.getV y).getLsbD k)) ∧ OnlyRegs [x] s t) ∧
  (∀ (x y : Reg) (s : State), ∃ t, exec (.and x y) s = .next t ∧
    (∀ k, (t.getV x).getLsbD k = ((s.getV x).getLsbD k && (s.getV y).getLsbD k)) ∧ OnlyRegs [x] s t) ∧
  (∀ (x y : Reg) (s : State), ∃ t, exec (.xor x y) s = .next t ∧
    (∀ k, (t.getV x).getLsbD k = ((s.getV x).getLsbD k ^^ (s.getV y).getLsbD k)) ∧ OnlyRegs [x] s t)

/-- O29. 8XY4: V[x] is the sum modulo 256 and VF the carry (spec/41_alu.md section 2). That with x = F the carry stays, and that
VF as an operand is the old VF, is the spec's decision D7, log entry 15. -/
def Obligations.AddWithCarry : Prop :=
  Encoded 0x8004 0xF00F (fun w => .addVxVy (fieldX w) (fieldY w)) ∧
  ∀ (x y : Reg) (s : State), ∃ t, exec (.addVxVy x y) s = .next t ∧
    (x ≠ VF → (t.getV x).toNat = ((s.getV x).toNat + (s.getV y).toNat) % 256) ∧
    t.getV VF = (if 0xFF < (s.getV x).toNat + (s.getV y).toNat then 1 else 0) ∧ OnlyRegs [x, VF] s t

/-- O30. 8XY5 and 8XY7: the difference modulo 256, and VF = 1 exactly when there is no borrow (spec/41_alu.md section 2). That
with x = F the flag stays, and that VF as an operand is the old VF, is the spec's decision D7, log entry 15. -/
def Obligations.SubtractWithNotBorrow : Prop :=
  Encoded 0x8005 0xF00F (fun w => .sub (fieldX w) (fieldY w)) ∧
  Encoded 0x8007 0xF00F (fun w => .subn (fieldX w) (fieldY w)) ∧
  (∀ (x y : Reg) (s : State), ∃ t, exec (.sub x y) s = .next t ∧
    (x ≠ VF → ((t.getV x).toNat : Int) = (((s.getV x).toNat : Int) - (s.getV y).toNat) % 256) ∧
    t.getV VF = (if (s.getV y).toNat ≤ (s.getV x).toNat then 1 else 0) ∧ OnlyRegs [x, VF] s t) ∧
  (∀ (x y : Reg) (s : State), ∃ t, exec (.subn x y) s = .next t ∧
    (x ≠ VF → ((t.getV x).toNat : Int) = (((s.getV y).toNat : Int) - (s.getV x).toNat) % 256) ∧
    t.getV VF = (if (s.getV x).toNat ≤ (s.getV y).toNat then 1 else 0) ∧ OnlyRegs [x, VF] s t)

/-- O31. 8XY6 under every reading `q` and write order `o`: V[x] is the source shifted right and VF its bit 0 before the
shift; with x = F the order decides which of the two stays. The instruction runs it with the configured parameters. -/
def Obligations.ShiftRightByOne : Prop :=
  Encoded 0x8006 0xF00F (fun w => .shr (fieldX w) (fieldY w)) ∧
  ∀ (x y : Reg) (s : State), exec (.shr x y) s = .next (shiftRight shiftQuirk shiftXfOrder x y s) ∧
    ∀ (q : ShiftQuirk) (o : ShiftXfOrder) (src : Byte), src = (if q = .inPlace then s.getV x else s.getV y) →
      (x ≠ VF ∨ o = .flagThenResult → ((shiftRight q o x y s).getV x).toNat = src.toNat / 2) ∧
      (x ≠ VF ∨ o = .resultThenFlag → ((shiftRight q o x y s).getV VF).toNat = src.toNat % 2) ∧
      OnlyRegs [x, VF] s (shiftRight q o x y s)

/-- O32. 8XYE under every reading `q` and write order `o`: V[x] is the source shifted left, modulo 256, and VF its bit 7
before the shift; with x = F the order decides which of the two stays. The instruction runs it with the configured
parameters. -/
def Obligations.ShiftLeftByOne : Prop :=
  Encoded 0x800E 0xF00F (fun w => .shl (fieldX w) (fieldY w)) ∧
  ∀ (x y : Reg) (s : State), exec (.shl x y) s = .next (shiftLeft shiftQuirk shiftXfOrder x y s) ∧
    ∀ (q : ShiftQuirk) (o : ShiftXfOrder) (src : Byte), src = (if q = .inPlace then s.getV x else s.getV y) →
      (x ≠ VF ∨ o = .flagThenResult → ((shiftLeft q o x y s).getV x).toNat = src.toNat * 2 % 256) ∧
      (x ≠ VF ∨ o = .resultThenFlag → ((shiftLeft q o x y s).getV VF).toNat = src.toNat / 128) ∧
      OnlyRegs [x, VF] s (shiftLeft q o x y s)

/-- O33. The shifts as this hardware is configured: SHIFT_QUIRK = IN_PLACE, so V[y] plays no part, and SHIFT_XF_ORDER =
FLAG_THEN_RESULT, so with x = F the shifted value stays (spec/41_alu.md section 1; the order is the spec's decision D8, log
entry 5). -/
def Obligations.ShiftsAsConfigured : Prop :=
  ∀ (x y : Reg) (s : State),
    (∃ t, exec (.shr x y) s = .next t ∧ (t.getV x).toNat = (s.getV x).toNat / 2 ∧
      (x ≠ VF → (t.getV VF).toNat = (s.getV x).toNat % 2) ∧ OnlyRegs [x, VF] s t) ∧
    (∃ t, exec (.shl x y) s = .next t ∧ (t.getV x).toNat = (s.getV x).toNat * 2 % 256 ∧
      (x ≠ VF → (t.getV VF).toNat = (s.getV x).toNat / 128) ∧ OnlyRegs [x, VF] s t)

/-- O34. CXNN: V[x] is one drawn byte AND nn; bits outside nn are 0; nothing else of the core changes (spec/41_alu.md section
2; the free draw is the spec's decision D20). That the drawn byte is the first one that rndBytes lists, else a free one, that
the list then loses it and that draws counts it are the model's own convention, log entry 4. -/
def Obligations.RandomByteMasked : Prop :=
  Encoded 0xC000 0xF000 (fun w => .rnd (fieldX w) (fieldNN w)) ∧
  ∀ (x : Reg) (nn : Byte) (s : State), ∃ t, exec (.rnd x nn) s = .next t ∧ t.getV x = s.drawnByte &&& nn ∧
    (∀ r rest, s.rndBytes = r :: rest → t.getV x = r &&& nn ∧ t.rndBytes = rest) ∧
    (nn = 0 → t.getV x = 0) ∧ SameRegsBut [x] s t ∧ SameMemory s t ∧
    t = { s with v := t.v, rndBytes := s.rndBytes.tail, draws := s.draws + 1 }

/-! ## Index register and memory -/

/-- O35. ANNN loads I. FX1E adds V[x] to I modulo 65536 and sets VF exactly when the exact sum exceeds 0xFFF
(spec/42_index_memory.md section 1). That with x = F the old VF is added is the spec's decision D7, left open in item A2 of
spec/93_implementation_defined.md, log entry 15. -/
def Obligations.IndexLoadAndAdd : Prop :=
  Encoded 0xA000 0xF000 (fun w => .ldINnn (fieldNNN w)) ∧ Encoded 0xF01E 0xF0FF (fun w => .addIVx (fieldX w)) ∧
  (∀ (nnn : BitVec 12) (s : State), ∃ t, exec (.ldINnn nnn) s = .next t ∧ t.i.toNat = nnn.toNat ∧
    SameRegsBut [] s t ∧ SameMemory s t ∧ t = { s with i := t.i }) ∧
  (∀ (x : Reg) (s : State), ∃ t, exec (.addIVx x) s = .next t ∧
    t.i.toNat = (s.i.toNat + (s.getV x).toNat) % 65536 ∧
    t.getV VF = (if 0xFFF < s.i.toNat + (s.getV x).toNat then 1 else 0) ∧
    SameRegsBut [VF] s t ∧ SameMemory s t ∧ t = { s with v := t.v, i := t.i })

/-- O36. FX29 points I at `0x050 + 5 * V[x]`, V[x] not masked (spec/42_index_memory.md section 1; the spec's decision D11), and
for a digit the five bytes there at construction are its glyph. -/
def Obligations.GlyphAddress : Prop :=
  Encoded 0xF029 0xF0FF (fun w => .ldFVx (fieldX w)) ∧
  (∀ (x : Reg) (s : State), ∃ t, exec (.ldFVx x) s = .next t ∧ t.i.toNat = 0x050 + 5 * (s.getV x).toNat ∧
    SameRegsBut [] s t ∧ SameMemory s t ∧ t = { s with i := t.i }) ∧
  (∀ d k, d < 16 → k < 5 → some (State.reset.memRead (0x050 + 5 * d + k)) = font[5 * d + k]?)

/-- O37. FX33 inside memory stores the three decimal digits of V[x] at I, I+1, I+2 and changes nothing else
(spec/42_index_memory.md section 1; the range is the spec's decision D3, log entry 12, that I stays its decision D10, log
entry 17). -/
def Obligations.DecimalDigitsStored : Prop :=
  Encoded 0xF033 0xF0FF (fun w => .ldBVx (fieldX w)) ∧
  ∀ (x : Reg) (s : State), indexBase s ≤ 0xFFD → ∃ t, exec (.ldBVx x) s = .next t ∧
    (t.memRead (indexBase s)).toNat = (s.getV x).toNat / 100 ∧
    (t.memRead (indexBase s + 1)).toNat = (s.getV x).toNat / 10 % 10 ∧
    (t.memRead (indexBase s + 2)).toNat = (s.getV x).toNat % 10 ∧
    SameMemoryOutside s t (indexBase s) 3 ∧ SameRegsBut [] s t ∧ t = { s with mem := t.mem }

/-- O38. FX55 inside memory stores V0 to Vx at I to I+x and changes nothing else (the range is the spec's decision D3, that I
stays its decision D10). -/
def Obligations.RegistersStored : Prop :=
  Encoded 0xF055 0xF0FF (fun w => .ldMemVx (fieldX w)) ∧
  ∀ (x : Reg) (s : State), indexBase s + x.val ≤ 0xFFF → ∃ t, exec (.ldMemVx x) s = .next t ∧
    (∀ k : Reg, k ≤ x → t.memRead (indexBase s + k.val) = s.getV k) ∧
    SameMemoryOutside s t (indexBase s) (x.val + 1) ∧ SameRegsBut [] s t ∧ t = { s with mem := t.mem }

/-- O39. FX65 inside memory loads V0 to Vx from I to I+x and changes nothing else (the range is the spec's decision D3, that I
stays its decision D10). -/
def Obligations.RegistersLoaded : Prop :=
  Encoded 0xF065 0xF0FF (fun w => .ldVxMem (fieldX w)) ∧
  ∀ (x : Reg) (s : State), indexBase s + x.val ≤ 0xFFF → ∃ t, exec (.ldVxMem x) s = .next t ∧
    (∀ k : Reg, k ≤ x → t.getV k = s.memRead (indexBase s + k.val)) ∧
    (∀ k : Reg, x < k → t.getV k = s.getV k) ∧ SameMemory s t ∧ t = { s with v := t.v }

/-- O40. FX33, FX55 and FX65 that leave memory raise MEM_RANGE, recording the address of the instruction and the first data
address above 0xFFF (the spec's decision D3, log entry 12; the record is its decision D22); what else the faulted state holds is nothing to
rely on (log entry 7). -/
def Obligations.AccessPastMemoryFaults : Prop :=
  (∀ (x : Reg) (s : State), 0xFFD < indexBase s → ∃ t, exec (.ldBVx x) s = .next t ∧
    t.fault = some (.memRange s.instrPc (max (indexBase s) 0x1000))) ∧
  (∀ (x : Reg) (s : State), 0xFFF < indexBase s + x.val → ∃ t, exec (.ldMemVx x) s = .next t ∧
    t.fault = some (.memRange s.instrPc (max (indexBase s) 0x1000))) ∧
  (∀ (x : Reg) (s : State), 0xFFF < indexBase s + x.val → ∃ t, exec (.ldVxMem x) s = .next t ∧
    t.fault = some (.memRange s.instrPc (max (indexBase s) 0x1000)))

/-- O41. What FX55 stores, FX65 loads: in any later state with the same I and memory, V0 to Vx get back their values. -/
def Obligations.StoredRegistersReload : Prop :=
  ∀ (x : Reg) (s t u : State), indexBase s + x.val ≤ 0xFFF → exec (.ldMemVx x) s = .next t →
    u.mem = t.mem → u.i = s.i → ∃ w, exec (.ldVxMem x) u = .next w ∧ (∀ k : Reg, k ≤ x → w.getV k = s.getV k) ∧
      w.fault = u.fault

/-! ## Display -/

/-- O42. 00E0 clears every pixel and changes nothing else. -/
def Obligations.ClearScreen : Prop :=
  Encoded 0x00E0 0xFFFF (fun _ => .cls) ∧
  ∀ s : State, ∃ t, exec .cls s = .next t ∧ (∀ r c, r < 32 → c < 64 → t.fb.pixel r c = false) ∧
    SameRegsBut [] s t ∧ SameMemory s t ∧ t = { s with fb := t.fb }

/-- O43. DXYN with its sprite inside memory: a pixel is flipped exactly when a lit sprite bit is drawn on it, the origin
wrapped and the edges clipped, VF is 1 exactly when some such pixel was 1 before, and nothing but FB and VF changes
(spec/43_display.md sections 1 and 2; the range of the sprite is the spec's decision D9, and that x or y = F reads the old VF
its decision D7, log entry 15). -/
def Obligations.DrawFlipsSpritePixels : Prop :=
  Encoded 0xD000 0xF000 (fun w => .drw (fieldX w) (fieldY w) (fieldN w)) ∧
  ∀ (x y : Reg) (n : BitVec 4) (s : State), n = 0 ∨ indexBase s + n.toNat - 1 ≤ 0xFFF →
    ∃ t, exec (.drw x y n) s = .next t ∧
      (∀ r c, r < 32 → c < 64 → (t.fb.pixel r c ≠ s.fb.pixel r c ↔ s.drawsOn x y n r c)) ∧
      (t.getV VF = 1 ∧ (∃ r c, s.drawsOn x y n r c ∧ s.fb.pixel r c = true) ∨
        t.getV VF = 0 ∧ ¬∃ r c, s.drawsOn x y n r c ∧ s.fb.pixel r c = true) ∧
      SameRegsBut [VF] s t ∧ SameMemory s t ∧ t = { s with v := t.v, fb := t.fb }

/-- O44. DXYN whose last sprite byte lies past memory raises MEM_RANGE before any write, clipped rows counted
(spec/43_display.md section 2; the spec's decision D9, log entry 12; the record is its decision D22, log entry 7). -/
def Obligations.SpritePastMemoryFaults : Prop :=
  ∀ (x y : Reg) (n : BitVec 4) (s : State), n ≠ 0 → 0xFFF < indexBase s + n.toNat - 1 →
    exec (.drw x y n) s = .next (s.raiseFatal (.memRange s.instrPc (max (indexBase s) 0x1000)))

/-- O45. Drawing an identical sprite twice at the same coordinates restores the framebuffer, and the second drawing sets VF
exactly when the first lit at least one pixel on the screen, one that was 0 before (spec/43_display.md section 2; the spec
marks R174 as derived). That with x or y = F the old VF is the origin is the spec's decision D7, left open in item A2 of
spec/93_implementation_defined.md, log entry 15; the range of the sprite is its decision D9, log entry 12. -/
def Obligations.DrawTwiceRestoresFrame : Prop :=
  ∀ (x y : Reg) (n : BitVec 4) (s t u : State), n = 0 ∨ indexBase s + n.toNat - 1 ≤ 0xFFF →
    exec (.drw x y n) s = .next t → u.fb = t.fb → u.mem = s.mem → u.i = s.i → u.getV x = s.getV x → u.getV y = s.getV y →
    ∃ w, exec (.drw x y n) u = .next w ∧ w.fb = s.fb ∧
      (w.getV VF = 1 ∧ (∃ r c, s.drawsOn x y n r c ∧ s.fb.pixel r c = false) ∨
        w.getV VF = 0 ∧ ¬∃ r c, s.drawsOn x y n r c ∧ s.fb.pixel r c = false)

/-! ## Keypad and timers -/

/-- O46. EX9E and EXA1 for a key code up to 0xF skip exactly on a pressed, respectively released key; for a greater code they
raise KEY_RANGE and change nothing else (spec/44_keypad_timers.md sections 1 and 3; the fault is the spec's decision D6, log entry
12; the record is its decision D22, log entry 7). -/
def Obligations.KeySkips : Prop :=
  Encoded 0xE09E 0xF0FF (fun w => .skp (fieldX w)) ∧ Encoded 0xE0A1 0xF0FF (fun w => .sknp (fieldX w)) ∧
  (∀ (x : Reg) (s : State), (s.getV x).toNat ≤ 0xF →
    (∃ t, exec (.skp x) s = .next t ∧
      t.pc = (if s.keyPressed (s.getV x).toNat then s.pc + 2 else s.pc) ∧ OnlyPc s t) ∧
    (∃ t, exec (.sknp x) s = .next t ∧
      t.pc = (if s.keyPressed (s.getV x).toNat then s.pc else s.pc + 2) ∧ OnlyPc s t)) ∧
  (∀ (x : Reg) (s : State), 0xF < (s.getV x).toNat →
    exec (.skp x) s = .next (s.raiseFatal (.keyRange s.instrPc (s.getV x))) ∧
    exec (.sknp x) s = .next (s.raiseFatal (.keyRange s.instrPc (s.getV x))))

/-- O47. FX0A: with a key pressed, V[x] gets the lowest pressed code and PC stays past the instruction; with none, PC goes back
to the instruction and nothing else changes. A waiting cycle still ticks the timers and exchanges with the host. -/
def Obligations.WaitForKey : Prop :=
  Encoded 0xF00A 0xF0FF (fun w => .ldVxK (fieldX w)) ∧
  (∀ (x : Reg) (s : State) (k : Nat), k < 16 → s.keyPressed k = true → (∀ j, j < k → s.keyPressed j = false) →
    ∃ t, exec (.ldVxK x) s = .next t ∧ (t.getV x).toNat = k ∧ OnlyRegs [x] s t) ∧
  (∀ (x : Reg) (s : State), (∀ k, k < 16 → s.keyPressed k = false) →
    ∃ t, exec (.ldVxK x) s = .next t ∧ t.pc = s.instrPc ∧ OnlyPc s t) ∧
  (∀ (x : Reg) (s : State), s.Fetches (.ldVxK x) → (∀ k, k < 16 → s.keyPressed k = false) →
    step s = .next s.tickTimers.hostExchange)

/-- O48. FX07 reads DT, FX15 writes DT, FX18 writes ST; the accumulators stay. In a cycle, FX07 reads the DT that the cycle
has already ticked, and the beep level is that after FX18. -/
def Obligations.TimerAccess : Prop :=
  Encoded 0xF007 0xF0FF (fun w => .ldVxDt (fieldX w)) ∧ Encoded 0xF015 0xF0FF (fun w => .ldDtVx (fieldX w)) ∧
  Encoded 0xF018 0xF0FF (fun w => .ldStVx (fieldX w)) ∧
  (∀ (x : Reg) (s : State), ∃ t, exec (.ldVxDt x) s = .next t ∧ t.getV x = s.dt ∧ OnlyRegs [x] s t) ∧
  (∀ (x : Reg) (s : State), ∃ t, exec (.ldDtVx x) s = .next t ∧ t.dt = s.getV x ∧
    SameRegsBut [] s t ∧ SameMemory s t ∧ t = { s with dt := t.dt }) ∧
  (∀ (x : Reg) (s : State), ∃ t, exec (.ldStVx x) s = .next t ∧ t.st = s.getV x ∧
    SameRegsBut [] s t ∧ SameMemory s t ∧ t = { s with st := t.st }) ∧
  (∀ (x : Reg) (s : State), s.Fetches (.ldVxDt x) → ∃ t, step s = .next t ∧ t.getV x = s.tickTimers.dt) ∧
  (∀ (x : Reg) (s : State), s.Fetches (.ldStVx x) →
    ∃ t, step s = .next t ∧ t.st = s.getV x ∧ (t.beepOut = true ↔ 1 ≤ (s.getV x).toNat))

/-! ## Rules over all instructions -/

/-- O49. Memory is written only by FX33 and FX55, and the framebuffer only by 00E0 and DXYN. -/
def Obligations.WritersOfMemoryAndFrame : Prop :=
  ∀ (i : Instr) (s t : State), exec i s = .next t →
    ((∀ x, i ≠ .ldBVx x ∧ i ≠ .ldMemVx x) → SameMemory s t ∧ t.mem = s.mem) ∧
    ((i ≠ .cls ∧ ∀ x y n, i ≠ .drw x y n) → t.fb = s.fb)

/-- O50. I is written only by ANNN, FX1E and FX29, DT only by FX15, ST only by FX18, and the call stack only by 2NNN and
00EE. That FX33, FX55 and FX65 leave I is R156, the spec's decision D10, log entry 17. -/
def Obligations.WritersOfIndexTimersStack : Prop :=
  ∀ (i : Instr) (s t : State), exec i s = .next t →
    (((∀ a, i ≠ .ldINnn a) ∧ ∀ x, i ≠ .addIVx x ∧ i ≠ .ldFVx x) → t.i = s.i) ∧
    ((∀ x, i ≠ .ldDtVx x) → t.dt = s.dt) ∧ ((∀ x, i ≠ .ldStVx x) → t.st = s.st) ∧
    ((i ≠ .ret ∧ ∀ a, i ≠ .call a) → t.sp = s.sp ∧ t.stack = s.stack)

/-- O51. No instruction writes KEY, an accumulator, RUN_ENDED or an output port (spec/10_state.md sections 7, 8 and 13,
spec/60_exceptions.md sections 4 and 5; the ports as fields are log entry 9). The clauses on hostTurns and hostCalls are
about the model's own fields, log entry 3. -/
def Obligations.InstructionsLeaveHostState : Prop :=
  ∀ (i : Instr) (s t : State), exec i s = .next t →
    t.key = s.key ∧ t.dtAcc = s.dtAcc ∧ t.stAcc = s.stAcc ∧ t.runEnded = s.runEnded ∧ t.frameOut = s.frameOut ∧
    t.beepOut = s.beepOut ∧ t.hostTurns = s.hostTurns ∧ t.hostCalls = s.hostCalls

/-- O52. The instructions that write VF as a flag are exactly 8XY4, 8XY5, 8XY7, 8XY6, 8XYE, FX1E and DXYN: any other one leaves
VF as it is unless VF is the register it names as its destination (or FX65 with x = F). -/
def Obligations.WritersOfFlag : Prop :=
  ∀ (i : Instr) (s t : State), exec i s = .next t →
    (∀ x y, i ≠ .addVxVy x y ∧ i ≠ .sub x y ∧ i ≠ .subn x y ∧ i ≠ .shr x y ∧ i ≠ .shl x y) →
    (∀ x y n, i ≠ .addIVx x ∧ i ≠ .drw x y n) →
    (∀ nn, i ≠ .ldVxNn VF nn ∧ i ≠ .addVxNn VF nn ∧ i ≠ .rnd VF nn) →
    (∀ y, i ≠ .ldVxVy VF y ∧ i ≠ .or VF y ∧ i ≠ .and VF y ∧ i ≠ .xor VF y) →
    i ≠ .ldVxDt VF → i ≠ .ldVxK VF → i ≠ .ldVxMem VF → t.getV VF = s.getV VF

/-- O53. Which instruction raises which fatal, when, and what it records (spec/60_exceptions.md section 1). The records are the
spec's decision D22; the cause MEM_RANGE is its decisions D3 and D9 and the cause KEY_RANGE its decision D6, all log entry 12;
the capacity 16 is its decisions D1 and D2, log entry 6. -/
def Obligations.FatalCauses : Prop :=
  ∀ (i : Instr) (s t : State) (r : Fatal), exec i s = .next t → s.fault = none → t.fault = some r →
    (∃ a, i = .call a ∧ 16 ≤ s.sp.val ∧ r = .stackOverflow s.instrPc) ∨
    (i = .ret ∧ s.sp.val = 0 ∧ r = .stackUnderflow s.instrPc) ∨
    (∃ x, (i = .skp x ∨ i = .sknp x) ∧ 0xF < (s.getV x).toNat ∧ r = .keyRange s.instrPc (s.getV x)) ∨
    (∃ x, i = .ldBVx x ∧ 0xFFD < indexBase s ∧ r = .memRange s.instrPc (max (indexBase s) 0x1000)) ∨
    (∃ x, (i = .ldMemVx x ∨ i = .ldVxMem x) ∧ 0xFFF < indexBase s + x.val ∧
      r = .memRange s.instrPc (max (indexBase s) 0x1000)) ∨
    (∃ x y n, i = .drw x y n ∧ n ≠ 0 ∧ 0xFFF < indexBase s + n.toNat - 1 ∧
      r = .memRange s.instrPc (max (indexBase s) 0x1000))

/-- O54. No instruction reads ST, an accumulator or an output port: two states that differ only there give results that differ
only there (spec/10_state.md section 7). The ports are those of spec/60_exceptions.md section 4, and that they are kept as
fields is log entry 9. -/
def Obligations.SoundTimerIsNotRead : Prop :=
  ∀ (i : Instr) (s t : State) (b : Byte) (a c : Nat) (f : Frame) (e : Bool), exec i s = .next t →
    exec i { s with st := b, dtAcc := a, stAcc := c, frameOut := f, beepOut := e } =
      .next { t with
        st := (match i with | .ldStVx _ => t.st | _ => b), dtAcc := a, stAcc := c, frameOut := f, beepOut := e }

/-- O55. A byte stored by FX55 is fetched as written: the word the next fetch reads at an address FX55 stored to is made of the
bytes it stored (spec/20_memory.md section 6; the spec marks R65 as derived). -/
def Obligations.StoredBytesAreFetched : Prop :=
  ∀ (x j k : Reg) (s t u : State), indexBase s + x.val ≤ 0xFFF → exec (.ldMemVx x) s = .next t →
    k ≤ x → j.val + 1 = k.val → u.mem = t.mem → u.pc.toNat = indexBase s + j.val →
    u.fetchWord = .ok (wordOfBytes (s.getV j) (s.getV k))

/-- O56. A flag is only ever 0 or 1: after a flag-writing instruction that raises no fatal, VF is 0 or 1 (spec/10_state.md
section 3; the spec marks R23 as derived). That 8FY4, 8FY5 and 8FY7 leave the flag in VF is the spec's decision D7, log entry
15. For the shifts with x = F the shifted value may stay (log entry 5), so they are taken with x other than F. -/
def Obligations.FlagIsZeroOrOne : Prop :=
  ∀ (s t : State) (x y : Reg) (n : BitVec 4), t.fault = none →
    (exec (.addVxVy x y) s = .next t ∨ exec (.sub x y) s = .next t ∨ exec (.subn x y) s = .next t ∨
      exec (.addIVx x) s = .next t ∨ exec (.drw x y n) s = .next t ∨
      (x ≠ VF ∧ (exec (.shr x y) s = .next t ∨ exec (.shl x y) s = .next t))) →
    s.fault = none → t.getV VF = 0 ∨ t.getV VF = 1

/-- O57. A word placed where the next instruction is fetched is what the fetch reads, big-endian, and the placing changes only
the two bytes at PC (spec/20_memory.md sections 2 and 5). withFetchWord is the model's own stand-in for the ROM load, log
entry 11. -/
def Obligations.PlacedWordIsFetched : Prop :=
  ∀ (s : State) (w : Word), s.pc.toNat ≤ 0xFFE →
    (s.withFetchWord 16 w.toNat).fetchWord = .ok w ∧
    (s.withFetchWord 16 w.toNat).memRead s.pc.toNat = w.extractLsb' 8 8 ∧
    (s.withFetchWord 16 w.toNat).memRead (s.pc.toNat + 1) = w.extractLsb' 0 8 ∧
    SameMemoryOutside s (s.withFetchWord 16 w.toNat) s.pc.toNat 2 ∧
    s.withFetchWord 16 w.toNat = { s with mem := (s.withFetchWord 16 w.toNat).mem }

/-! ## Parameters -/

/-- O58. The step of this hardware is the step under parameters at the values this hardware takes: STACK_CAPACITY 16, the
configured rate, SHIFT_QUIRK and SHIFT_XF_ORDER at their defaults, the font, and no byte of MEM_INIT given (spec/00_scope.md
section 3; the values are log entries 2, 5, 6 and 10). -/
def Obligations.StepIsStepWithHardware : Prop :=
  (∀ s : State, step s = stepWith hardware s) ∧ hardware.wellFormed = true ∧
  hardware = ⟨16, Config.cycleRate, .inPlace, .flagThenResult, [], font⟩ ∧ timerPeriodOf hardware = timerPeriod

/-- O59. The step under any parameters (spec/10_state.md section 11): the timers tick with the given period, CALL has the given
capacity, the shifts have the given reading and order, and no other instruction depends on a parameter. What the state has room
for bounds the capacity at 64 (log entry 6), and faults are taken in a next state (log entry 7). -/
def Obligations.StepUnderParameters : Prop :=
  ∀ (p : Params) (s : State),
    (∀ i : Instr, s.Fetches i → stepWith p s =
      finishCycle (execWith p i ((s.tickTimersBy (p.cycleRate / 60)).setPc (s.pc + 2)))) ∧
    (∀ x y : Reg, execWith p (.shr x y) s = .next (shiftRight p.shiftQuirk p.shiftXfOrder x y s) ∧
      execWith p (.shl x y) s = .next (shiftLeft p.shiftQuirk p.shiftXfOrder x y s)) ∧
    (∀ nnn : BitVec 12, p.stackCapacity ≤ 64 → s.sp.val < p.stackCapacity →
      ∃ t, execWith p (.call nnn) s = .next t ∧ t.pc.toNat = nnn.toNat ∧ t.slot s.sp.val = s.pc ∧
        t.sp.val = s.sp.val + 1 ∧ (∀ k, k ≠ s.sp.val → t.slot k = s.slot k) ∧
        t = { s with pc := t.pc, stack := t.stack, sp := t.sp }) ∧
    (∀ nnn : BitVec 12, p.stackCapacity ≤ s.sp.val →
      execWith p (.call nnn) s = .next (s.raiseFatal (.stackOverflow s.instrPc))) ∧
    (∀ i : Instr, (∀ nnn, i ≠ .call nnn) → (∀ x y, i ≠ .shr x y ∧ i ≠ .shl x y) → execWith p i s = exec i s)

/-- O60. Construction and launch under any parameters the spec allows: memory holds the given font and, elsewhere, the given
MEM_INIT, the rest is as State.reset has it; at this hardware's parameters it is State.reset; parameters the spec does not
allow, such as a rate below 60, launch nothing (spec/00_scope.md section 3, decision D13; spec/10_state.md section 12). That
MEM_INIT may be given in part, and that what is not given is free, is log entry 1. -/
def Obligations.LaunchUnderParameters : Prop :=
  (∀ p : Params, p.wellFormed = true →
    (∀ k (h : k < p.font.length), (State.construct p).memRead (0x050 + k) = p.font[k]) ∧
    (∀ a (h : a < p.memInit.length), a < 0x050 ∨ 0x0A0 ≤ a → (State.construct p).memRead a = p.memInit[a]) ∧
    (∀ a, p.memInit.length ≤ a → a < 0x050 ∨ 0x0A0 ≤ a → (State.construct p).memRead a = State.reset.memRead a) ∧
    State.construct p = { State.reset with mem := (State.construct p).mem } ∧ (State.construct p).mem.wf ∧
    ∀ rom, launch p rom = (State.construct p).loadRom rom) ∧
  State.construct hardware = State.reset ∧
  ∀ (p : Params) (rom : Rom), p.cycleRate < 60 → launch p rom = .refused .parametersNotAllowed
end

