-- ==== Sys2Proof/Laws/Decode.lean ====
section
/-! SUPPORT. The laws of the opcode map: its rows are pairwise disjoint, so a word's row decides what it decodes to
(spec/30_encoding.md R76). -/

namespace Sys2Proof

/-- Two rows that some word could match both agree on every bit both fix. Rows that disagree are disjoint. -/
abbrev OpcodeRow.Disjoint (r q : OpcodeRow) : Prop := r.code &&& q.mask ≠ q.code &&& r.mask

theorem opcodeTable_disjoint : opcodeTable.Pairwise OpcodeRow.Disjoint := by decide

theorem OpcodeRow.Disjoint.symm {r q : OpcodeRow} (h : r.Disjoint q) : q.Disjoint r := Ne.symm h

/-- No word matches two disjoint rows. -/
theorem OpcodeRow.Disjoint.not_matches {r q : OpcodeRow} (h : r.Disjoint q) {w : Word} (hr : r.Matches w) :
    ¬q.Matches w := fun hq => h <| by
  rw [← hr, ← hq, BitVec.and_assoc, BitVec.and_assoc, BitVec.and_comm r.mask]

theorem find?_of_pairwise {α : Type} {R : α → α → Prop} {p : α → Bool} {l : List α}
    (hl : l.Pairwise R) {a : α} (ha : a ∈ l) (hp : p a = true)
    (hR : ∀ b, b ∈ l → R b a → p b = false) : l.find? p = some a := by
  induction l with
  | nil => simp at ha
  | cons b l ih =>
    rcases List.mem_cons.1 ha with rfl | ha'
    · simp [hp]
    · have hb := hR b (List.mem_cons_self ..) ((List.pairwise_cons.1 hl).1 a ha')
      rw [List.find?_cons_of_neg (by simp [hb])]
      exact ih (List.pairwise_cons.1 hl).2 ha' fun c hc => hR c (List.mem_cons_of_mem _ hc)

/-- A word that matches a row of the map decodes to that row's instruction. -/
theorem decodeWord_of_row {r : OpcodeRow} (hr : r ∈ opcodeTable) {w : Word} (hw : r.Matches w) :
    decodeWord w = some (r.build w) := by
  unfold decodeWord
  rw [find?_of_pairwise opcodeTable_disjoint hr (by simpa using hw) fun q _ hq => by
    simpa using hq.symm.not_matches hw]
  rfl

/-- A word that decodes matches a row of the map, the one it is built from. -/
theorem row_of_decodeWord {w : Word} {i : Instr} (h : decodeWord w = some i) :
    ∃ r ∈ opcodeTable, r.Matches w ∧ r.build w = i := by
  unfold decodeWord at h
  obtain ⟨r, hr, rfl⟩ := Option.map_eq_some_iff.1 h
  exact ⟨r, List.mem_of_find?_eq_some hr, by simpa using List.find?_some hr, rfl⟩

/-- A word is unrecognised exactly when it matches no row. -/
theorem decodeWord_eq_none {w : Word} : decodeWord w = none ↔ ∀ r ∈ opcodeTable, ¬r.Matches w := by
  simp [decodeWord]

theorem encoded_of_row {r : OpcodeRow} (hr : r ∈ opcodeTable) : Encoded r.code r.mask r.build :=
  fun _ hw => decodeWord_of_row hr hw

/-! ## Concatenated bit fields -/

theorem extract_append_low {n m : Nat} (a : BitVec n) (b : BitVec m) : (a ++ b).extractLsb' 0 m = b :=
  BitVec.eq_of_getLsbD_eq fun k hk => by simp [BitVec.getLsbD_append, hk]

theorem extract_append_high {n m : Nat} (a : BitVec n) (b : BitVec m) (i len : Nat) :
    (a ++ b).extractLsb' (m + i) len = a.extractLsb' i len :=
  BitVec.eq_of_getLsbD_eq fun k hk => by
    simp [BitVec.getLsbD_append, hk, show ¬m + i + k < m by omega, show m + i + k - m = i + k by omega]

theorem append_and_append {n m : Nat} (a c : BitVec n) (b d : BitVec m) :
    (a ++ b) &&& (c ++ d) = (a &&& c) ++ (b &&& d) :=
  BitVec.eq_of_getLsbD_eq fun k _ => by
    simp only [BitVec.getLsbD_and, BitVec.getLsbD_append]
    split <;> rfl

/-! ## Fields of an encoded word -/

theorem fieldNNN_encodeNNN (f : BitVec 4) (nnn : BitVec 12) : fieldNNN (encodeNNN f nnn) = nnn :=
  extract_append_low f nnn

theorem fieldNN_encodeXNN (f : BitVec 4) (x : Reg) (nn : Byte) : fieldNN (encodeXNN f x nn) = nn :=
  extract_append_low (f ++ (BitVec.ofFin x : BitVec 4)) nn

theorem fieldX_encodeXNN (f : BitVec 4) (x : Reg) (nn : Byte) : fieldX (encodeXNN f x nn) = x :=
  congrArg BitVec.toFin <| (extract_append_high (f ++ (BitVec.ofFin x : BitVec 4)) nn 0 4).trans <|
    extract_append_low f (BitVec.ofFin x : BitVec 4)

theorem fieldX_encodeXYN (f : BitVec 4) (x y : Reg) (n : BitVec 4) : fieldX (encodeXYN f x y n) = x :=
  congrArg BitVec.toFin <|
    (extract_append_high (f ++ (BitVec.ofFin x : BitVec 4) ++ (BitVec.ofFin y : BitVec 4)) n 4 4).trans <|
    (extract_append_high (f ++ (BitVec.ofFin x : BitVec 4)) (BitVec.ofFin y : BitVec 4) 0 4).trans <|
    extract_append_low f (BitVec.ofFin x : BitVec 4)

theorem fieldY_encodeXYN (f : BitVec 4) (x y : Reg) (n : BitVec 4) : fieldY (encodeXYN f x y n) = y :=
  congrArg BitVec.toFin <|
    (extract_append_high (f ++ (BitVec.ofFin x : BitVec 4) ++ (BitVec.ofFin y : BitVec 4)) n 0 4).trans <|
    extract_append_low (f ++ (BitVec.ofFin x : BitVec 4)) (BitVec.ofFin y : BitVec 4)

theorem fieldN_encodeXYN (f : BitVec 4) (x y : Reg) (n : BitVec 4) : fieldN (encodeXYN f x y n) = n :=
  extract_append_low (f ++ (BitVec.ofFin x : BitVec 4) ++ (BitVec.ofFin y : BitVec 4)) n

/-- The word of the two bytes of a word is that word (spec/20_memory.md R60). -/
theorem wordOfBytes_high_low (w : Word) : wordOfBytes (highByte w) (lowByte w) = w := by
  refine BitVec.eq_of_getLsbD_eq fun k hk => ?_
  have h1 : (wordOfBytes (highByte w) (lowByte w)).getLsbD k =
      if k < 8 then (lowByte w).getLsbD k else (highByte w).getLsbD (k - 8) := BitVec.getLsbD_append
  rw [h1]
  split
  · rename_i h
    simp [lowByte, h]
  · simp [highByte, show k - 8 < 8 by omega, show 8 + (k - 8) = k by omega]

/-! ## Masking an encoded word leaves its fixed fields -/

theorem encodeNNN_and (f g : BitVec 4) (nnn mmm : BitVec 12) :
    encodeNNN f nnn &&& encodeNNN g mmm = encodeNNN (f &&& g) (nnn &&& mmm) :=
  append_and_append f g nnn mmm

theorem encodeXNN_and (f g : BitVec 4) (x y : Reg) (nn mm : Byte) :
    encodeXNN f x nn &&& encodeXNN g y mm =
      (f &&& g) ++ ((BitVec.ofFin x : BitVec 4) &&& BitVec.ofFin y) ++ (nn &&& mm) :=
  (append_and_append (f ++ (BitVec.ofFin x : BitVec 4)) (g ++ (BitVec.ofFin y : BitVec 4)) nn mm).trans <|
    congrArg (· ++ (nn &&& mm)) (append_and_append f g ..)

theorem encodeXYN_and (f g : BitVec 4) (x y z w : Reg) (n m : BitVec 4) :
    encodeXYN f x y n &&& encodeXYN g z w m =
      (f &&& g) ++ ((BitVec.ofFin x : BitVec 4) &&& BitVec.ofFin z) ++ ((BitVec.ofFin y : BitVec 4) &&& BitVec.ofFin w) ++
        (n &&& m) :=
  (append_and_append (f ++ (BitVec.ofFin x : BitVec 4) ++ (BitVec.ofFin y : BitVec 4))
    (g ++ (BitVec.ofFin z : BitVec 4) ++ (BitVec.ofFin w : BitVec 4)) n m).trans <|
    congrArg (· ++ (n &&& m)) <| (append_and_append (f ++ (BitVec.ofFin x : BitVec 4)) (g ++ (BitVec.ofFin z : BitVec 4)) ..).trans <|
      congrArg (· ++ ((BitVec.ofFin y : BitVec 4) &&& BitVec.ofFin w)) (append_and_append f g ..)

theorem encodeNNN_mask (f : BitVec 4) (nnn : BitVec 12) : encodeNNN f nnn &&& 0xF000 = encodeNNN f 0 := by
  rw [show (0xF000 : Word) = encodeNNN 0xF 0 from rfl, encodeNNN_and, show nnn &&& 0 = 0 from BitVec.and_zero,
    show f &&& 0xF = f from BitVec.and_allOnes]

theorem encodeXNN_mask (f : BitVec 4) (x : Reg) (nn : Byte) : encodeXNN f x nn &&& 0xF000 = encodeXNN f 0 0 := by
  rw [show (0xF000 : Word) = encodeXNN 0xF 0 0 from rfl, encodeXNN_and, show nn &&& 0 = 0 from BitVec.and_zero,
    show (BitVec.ofFin x : BitVec 4) &&& BitVec.ofFin 0 = 0 from BitVec.and_zero, show f &&& 0xF = f from BitVec.and_allOnes]
  rfl

theorem encodeXNN_maskX (f : BitVec 4) (x : Reg) (nn : Byte) : encodeXNN f x nn &&& 0xF0FF = encodeXNN f 0 nn := by
  rw [show (0xF0FF : Word) = encodeXNN 0xF 0 0xFF from rfl, encodeXNN_and, show nn &&& 0xFF = nn from BitVec.and_allOnes,
    show (BitVec.ofFin x : BitVec 4) &&& BitVec.ofFin 0 = 0 from BitVec.and_zero, show f &&& 0xF = f from BitVec.and_allOnes]
  rfl

theorem encodeXYN_mask (f : BitVec 4) (x y : Reg) (n : BitVec 4) : encodeXYN f x y n &&& 0xF000 = encodeXYN f 0 0 0 := by
  rw [show (0xF000 : Word) = encodeXYN 0xF 0 0 0 from rfl, encodeXYN_and, show n &&& 0 = 0 from BitVec.and_zero,
    show (BitVec.ofFin x : BitVec 4) &&& BitVec.ofFin 0 = 0 from BitVec.and_zero,
    show (BitVec.ofFin y : BitVec 4) &&& BitVec.ofFin 0 = 0 from BitVec.and_zero, show f &&& 0xF = f from BitVec.and_allOnes]
  rfl

theorem encodeXYN_maskXY (f : BitVec 4) (x y : Reg) (n : BitVec 4) :
    encodeXYN f x y n &&& 0xF00F = encodeXYN f 0 0 n := by
  rw [show (0xF00F : Word) = encodeXYN 0xF 0 0 0xF from rfl, encodeXYN_and, show n &&& 0xF = n from BitVec.and_allOnes,
    show (BitVec.ofFin x : BitVec 4) &&& BitVec.ofFin 0 = 0 from BitVec.and_zero,
    show (BitVec.ofFin y : BitVec 4) &&& BitVec.ofFin 0 = 0 from BitVec.and_zero, show f &&& 0xF = f from BitVec.and_allOnes]
  rfl

/-! ## A word put together again from its fields -/

/-- `family = ins[15:12]` (spec/30_encoding.md R71). -/
def family (w : Word) : BitVec 4 := w.extractLsb' 12 4

theorem encodeNNN_fields (w : Word) : encodeNNN (family w) (fieldNNN w) = w :=
  BitVec.eq_of_getLsbD_eq fun k hk => by
    have h : (encodeNNN (family w) (fieldNNN w)).getLsbD k =
        if k < 12 then (fieldNNN w).getLsbD k else (family w).getLsbD (k - 12) := BitVec.getLsbD_append
    rw [h]
    split
    · rename_i hk'
      simp [fieldNNN, hk']
    · simp [family, show k - 12 < 4 by omega, show 12 + (k - 12) = k by omega]

theorem extract_append_extract (w : Word) {i m n : Nat} :
    w.extractLsb' (i + m) n ++ w.extractLsb' i m = w.extractLsb' i (n + m) :=
  BitVec.eq_of_getLsbD_eq fun k hk => by
    rw [BitVec.getLsbD_append]
    split
    · rename_i h
      simp [h, show k < n + m by omega]
    · simp [hk, show k - m < n by omega, show i + m + (k - m) = i + k by omega]

theorem encodeXNN_fields (w : Word) : encodeXNN (family w) (fieldX w) (fieldNN w) = w :=
  (congrArg (· ++ fieldNN w) (extract_append_extract w (i := 8) (m := 4) (n := 4))).trans <|
    (extract_append_extract w (i := 0) (m := 8) (n := 8)).trans (BitVec.extractLsb'_eq_self ..)

theorem encodeXYN_fields (w : Word) : encodeXYN (family w) (fieldX w) (fieldY w) (fieldN w) = w :=
  (congrArg (· ++ (w.extractLsb' 4 4) ++ fieldN w) (extract_append_extract w (i := 8) (m := 4) (n := 4))).trans <|
    (congrArg (· ++ fieldN w) (extract_append_extract w (i := 4) (m := 4) (n := 8))).trans <|
    (extract_append_extract w (i := 0) (m := 4) (n := 12)).trans (BitVec.extractLsb'_eq_self ..)

theorem family_encodeNNN (f : BitVec 4) (nnn : BitVec 12) : family (encodeNNN f nnn) = f :=
  (extract_append_high f nnn 0 4).trans (BitVec.extractLsb'_eq_self ..)

/-- A mask that keeps the family. -/
theorem matches_family (w : Word) (f : BitVec 4) : w &&& 0xF000 = encodeNNN f 0 ↔ family w = f := by
  conv_lhs => rw [← encodeNNN_fields w, encodeNNN_mask]
  exact ⟨fun h => by rw [← family_encodeNNN (family w) 0, h, family_encodeNNN], fun h => by rw [h]⟩

/-- A mask that keeps the family and the low byte. -/
theorem matches_family_low (w : Word) (f : BitVec 4) (nn : Byte) :
    w &&& 0xF0FF = encodeXNN f 0 nn ↔ family w = f ∧ fieldNN w = nn := by
  have hf (f : BitVec 4) (nn : Byte) : family (encodeXNN f 0 nn) = f :=
    (extract_append_high (f ++ (BitVec.ofFin 0 : BitVec 4)) nn 4 4).trans <|
      (extract_append_high f (BitVec.ofFin 0 : BitVec 4) 0 4).trans (BitVec.extractLsb'_eq_self ..)
  conv_lhs => rw [← encodeXNN_fields w, encodeXNN_maskX]
  refine ⟨fun h => ⟨?_, ?_⟩, fun h => by rw [h.1, h.2]⟩
  · rw [← hf (family w) (fieldNN w), h, hf]
  · rw [← fieldNN_encodeXNN (family w) 0 (fieldNN w), h, fieldNN_encodeXNN]

/-- A mask that keeps the family and the lowest four bits. -/
theorem matches_family_n (w : Word) (f n : BitVec 4) :
    w &&& 0xF00F = encodeXYN f 0 0 n ↔ family w = f ∧ fieldN w = n := by
  have hf (f n : BitVec 4) : family (encodeXYN f 0 0 n) = f :=
    (extract_append_high (f ++ (BitVec.ofFin 0 : BitVec 4) ++ (BitVec.ofFin 0 : BitVec 4)) n 8 4).trans <|
      (extract_append_high (f ++ (BitVec.ofFin 0 : BitVec 4)) (BitVec.ofFin 0 : BitVec 4) 4 4).trans <|
      (extract_append_high f (BitVec.ofFin 0 : BitVec 4) 0 4).trans (BitVec.extractLsb'_eq_self ..)
  conv_lhs => rw [← encodeXYN_fields w, encodeXYN_maskXY]
  refine ⟨fun h => ⟨?_, ?_⟩, fun h => by rw [h.1, h.2]⟩
  · rw [← hf (family w) (fieldN w), h, hf]
  · rw [← fieldN_encodeXYN (family w) 0 0 (fieldN w), h, fieldN_encodeXYN]

end Sys2Proof
end

