-- ==== Sys2Proof/Laws/State.lean ====
section
/-! SUPPORT. What each update of the state does to each field, one lemma per field per update, and what it does to the
views of the state (a register, a memory byte, a key, a stack slot). -/

namespace Sys2Proof.Machine

variable (s : State)

/-! ### `State.setV` -/

@[simp] theorem State.setV_v (x : Reg) (b : Byte) : (s.setV x b).v = s.v.set x b := rfl
@[simp] theorem State.setV_i (x : Reg) (b : Byte) : (s.setV x b).i = s.i := rfl
@[simp] theorem State.setV_pc (x : Reg) (b : Byte) : (s.setV x b).pc = s.pc := rfl
@[simp] theorem State.setV_stack (x : Reg) (b : Byte) : (s.setV x b).stack = s.stack := rfl
@[simp] theorem State.setV_sp (x : Reg) (b : Byte) : (s.setV x b).sp = s.sp := rfl
@[simp] theorem State.setV_dt (x : Reg) (b : Byte) : (s.setV x b).dt = s.dt := rfl
@[simp] theorem State.setV_st (x : Reg) (b : Byte) : (s.setV x b).st = s.st := rfl
@[simp] theorem State.setV_dtAcc (x : Reg) (b : Byte) : (s.setV x b).dtAcc = s.dtAcc := rfl
@[simp] theorem State.setV_stAcc (x : Reg) (b : Byte) : (s.setV x b).stAcc = s.stAcc := rfl
@[simp] theorem State.setV_key (x : Reg) (b : Byte) : (s.setV x b).key = s.key := rfl
@[simp] theorem State.setV_fb (x : Reg) (b : Byte) : (s.setV x b).fb = s.fb := rfl
@[simp] theorem State.setV_mem (x : Reg) (b : Byte) : (s.setV x b).mem = s.mem := rfl
@[simp] theorem State.setV_fault (x : Reg) (b : Byte) : (s.setV x b).fault = s.fault := rfl
@[simp] theorem State.setV_runEnded (x : Reg) (b : Byte) : (s.setV x b).runEnded = s.runEnded := rfl
@[simp] theorem State.setV_frameOut (x : Reg) (b : Byte) : (s.setV x b).frameOut = s.frameOut := rfl
@[simp] theorem State.setV_beepOut (x : Reg) (b : Byte) : (s.setV x b).beepOut = s.beepOut := rfl
@[simp] theorem State.setV_hostTurns (x : Reg) (b : Byte) : (s.setV x b).hostTurns = s.hostTurns := rfl
@[simp] theorem State.setV_hostCalls (x : Reg) (b : Byte) : (s.setV x b).hostCalls = s.hostCalls := rfl
@[simp] theorem State.setV_rndBytes (x : Reg) (b : Byte) : (s.setV x b).rndBytes = s.rndBytes := rfl
@[simp] theorem State.setV_draws (x : Reg) (b : Byte) : (s.setV x b).draws = s.draws := rfl

@[simp] theorem State.memRead_setV (x : Reg) (b : Byte) (c : Nat) : (s.setV x b).memRead c = s.memRead c := rfl
@[simp] theorem State.keyPressed_setV (x : Reg) (b : Byte) (k : Nat) : (s.setV x b).keyPressed k = s.keyPressed k := rfl
@[simp] theorem State.slot_setV (x : Reg) (b : Byte) (k : Nat) : (s.setV x b).slot k = s.slot k := rfl
@[simp] theorem State.instrPc_setV (x : Reg) (b : Byte) : (s.setV x b).instrPc = s.instrPc := rfl

/-! ### `State.setPc` -/

@[simp] theorem State.setPc_v (a : Word) : (s.setPc a).v = s.v := rfl
@[simp] theorem State.setPc_i (a : Word) : (s.setPc a).i = s.i := rfl
@[simp] theorem State.setPc_pc (a : Word) : (s.setPc a).pc = a := rfl
@[simp] theorem State.setPc_stack (a : Word) : (s.setPc a).stack = s.stack := rfl
@[simp] theorem State.setPc_sp (a : Word) : (s.setPc a).sp = s.sp := rfl
@[simp] theorem State.setPc_dt (a : Word) : (s.setPc a).dt = s.dt := rfl
@[simp] theorem State.setPc_st (a : Word) : (s.setPc a).st = s.st := rfl
@[simp] theorem State.setPc_dtAcc (a : Word) : (s.setPc a).dtAcc = s.dtAcc := rfl
@[simp] theorem State.setPc_stAcc (a : Word) : (s.setPc a).stAcc = s.stAcc := rfl
@[simp] theorem State.setPc_key (a : Word) : (s.setPc a).key = s.key := rfl
@[simp] theorem State.setPc_fb (a : Word) : (s.setPc a).fb = s.fb := rfl
@[simp] theorem State.setPc_mem (a : Word) : (s.setPc a).mem = s.mem := rfl
@[simp] theorem State.setPc_fault (a : Word) : (s.setPc a).fault = s.fault := rfl
@[simp] theorem State.setPc_runEnded (a : Word) : (s.setPc a).runEnded = s.runEnded := rfl
@[simp] theorem State.setPc_frameOut (a : Word) : (s.setPc a).frameOut = s.frameOut := rfl
@[simp] theorem State.setPc_beepOut (a : Word) : (s.setPc a).beepOut = s.beepOut := rfl
@[simp] theorem State.setPc_hostTurns (a : Word) : (s.setPc a).hostTurns = s.hostTurns := rfl
@[simp] theorem State.setPc_hostCalls (a : Word) : (s.setPc a).hostCalls = s.hostCalls := rfl
@[simp] theorem State.setPc_rndBytes (a : Word) : (s.setPc a).rndBytes = s.rndBytes := rfl
@[simp] theorem State.setPc_draws (a : Word) : (s.setPc a).draws = s.draws := rfl

@[simp] theorem State.getV_setPc (a : Word) (r : Reg) : (s.setPc a).getV r = s.getV r := rfl
@[simp] theorem State.memRead_setPc (a : Word) (c : Nat) : (s.setPc a).memRead c = s.memRead c := rfl
@[simp] theorem State.keyPressed_setPc (a : Word) (k : Nat) : (s.setPc a).keyPressed k = s.keyPressed k := rfl
@[simp] theorem State.slot_setPc (a : Word) (k : Nat) : (s.setPc a).slot k = s.slot k := rfl

/-! ### `State.setI` -/

@[simp] theorem State.setI_v (a : Word) : (s.setI a).v = s.v := rfl
@[simp] theorem State.setI_i (a : Word) : (s.setI a).i = a := rfl
@[simp] theorem State.setI_pc (a : Word) : (s.setI a).pc = s.pc := rfl
@[simp] theorem State.setI_stack (a : Word) : (s.setI a).stack = s.stack := rfl
@[simp] theorem State.setI_sp (a : Word) : (s.setI a).sp = s.sp := rfl
@[simp] theorem State.setI_dt (a : Word) : (s.setI a).dt = s.dt := rfl
@[simp] theorem State.setI_st (a : Word) : (s.setI a).st = s.st := rfl
@[simp] theorem State.setI_dtAcc (a : Word) : (s.setI a).dtAcc = s.dtAcc := rfl
@[simp] theorem State.setI_stAcc (a : Word) : (s.setI a).stAcc = s.stAcc := rfl
@[simp] theorem State.setI_key (a : Word) : (s.setI a).key = s.key := rfl
@[simp] theorem State.setI_fb (a : Word) : (s.setI a).fb = s.fb := rfl
@[simp] theorem State.setI_mem (a : Word) : (s.setI a).mem = s.mem := rfl
@[simp] theorem State.setI_fault (a : Word) : (s.setI a).fault = s.fault := rfl
@[simp] theorem State.setI_runEnded (a : Word) : (s.setI a).runEnded = s.runEnded := rfl
@[simp] theorem State.setI_frameOut (a : Word) : (s.setI a).frameOut = s.frameOut := rfl
@[simp] theorem State.setI_beepOut (a : Word) : (s.setI a).beepOut = s.beepOut := rfl
@[simp] theorem State.setI_hostTurns (a : Word) : (s.setI a).hostTurns = s.hostTurns := rfl
@[simp] theorem State.setI_hostCalls (a : Word) : (s.setI a).hostCalls = s.hostCalls := rfl
@[simp] theorem State.setI_rndBytes (a : Word) : (s.setI a).rndBytes = s.rndBytes := rfl
@[simp] theorem State.setI_draws (a : Word) : (s.setI a).draws = s.draws := rfl

@[simp] theorem State.getV_setI (a : Word) (r : Reg) : (s.setI a).getV r = s.getV r := rfl
@[simp] theorem State.memRead_setI (a : Word) (c : Nat) : (s.setI a).memRead c = s.memRead c := rfl
@[simp] theorem State.keyPressed_setI (a : Word) (k : Nat) : (s.setI a).keyPressed k = s.keyPressed k := rfl
@[simp] theorem State.slot_setI (a : Word) (k : Nat) : (s.setI a).slot k = s.slot k := rfl
@[simp] theorem State.instrPc_setI (a : Word) : (s.setI a).instrPc = s.instrPc := rfl

/-! ### `State.setDt` -/

@[simp] theorem State.setDt_v (b : Byte) : (s.setDt b).v = s.v := rfl
@[simp] theorem State.setDt_i (b : Byte) : (s.setDt b).i = s.i := rfl
@[simp] theorem State.setDt_pc (b : Byte) : (s.setDt b).pc = s.pc := rfl
@[simp] theorem State.setDt_stack (b : Byte) : (s.setDt b).stack = s.stack := rfl
@[simp] theorem State.setDt_sp (b : Byte) : (s.setDt b).sp = s.sp := rfl
@[simp] theorem State.setDt_dt (b : Byte) : (s.setDt b).dt = b := rfl
@[simp] theorem State.setDt_st (b : Byte) : (s.setDt b).st = s.st := rfl
@[simp] theorem State.setDt_dtAcc (b : Byte) : (s.setDt b).dtAcc = s.dtAcc := rfl
@[simp] theorem State.setDt_stAcc (b : Byte) : (s.setDt b).stAcc = s.stAcc := rfl
@[simp] theorem State.setDt_key (b : Byte) : (s.setDt b).key = s.key := rfl
@[simp] theorem State.setDt_fb (b : Byte) : (s.setDt b).fb = s.fb := rfl
@[simp] theorem State.setDt_mem (b : Byte) : (s.setDt b).mem = s.mem := rfl
@[simp] theorem State.setDt_fault (b : Byte) : (s.setDt b).fault = s.fault := rfl
@[simp] theorem State.setDt_runEnded (b : Byte) : (s.setDt b).runEnded = s.runEnded := rfl
@[simp] theorem State.setDt_frameOut (b : Byte) : (s.setDt b).frameOut = s.frameOut := rfl
@[simp] theorem State.setDt_beepOut (b : Byte) : (s.setDt b).beepOut = s.beepOut := rfl
@[simp] theorem State.setDt_hostTurns (b : Byte) : (s.setDt b).hostTurns = s.hostTurns := rfl
@[simp] theorem State.setDt_hostCalls (b : Byte) : (s.setDt b).hostCalls = s.hostCalls := rfl
@[simp] theorem State.setDt_rndBytes (b : Byte) : (s.setDt b).rndBytes = s.rndBytes := rfl
@[simp] theorem State.setDt_draws (b : Byte) : (s.setDt b).draws = s.draws := rfl

@[simp] theorem State.getV_setDt (b : Byte) (r : Reg) : (s.setDt b).getV r = s.getV r := rfl
@[simp] theorem State.memRead_setDt (b : Byte) (c : Nat) : (s.setDt b).memRead c = s.memRead c := rfl
@[simp] theorem State.keyPressed_setDt (b : Byte) (k : Nat) : (s.setDt b).keyPressed k = s.keyPressed k := rfl
@[simp] theorem State.slot_setDt (b : Byte) (k : Nat) : (s.setDt b).slot k = s.slot k := rfl
@[simp] theorem State.instrPc_setDt (b : Byte) : (s.setDt b).instrPc = s.instrPc := rfl

/-! ### `State.setSt` -/

@[simp] theorem State.setSt_v (b : Byte) : (s.setSt b).v = s.v := rfl
@[simp] theorem State.setSt_i (b : Byte) : (s.setSt b).i = s.i := rfl
@[simp] theorem State.setSt_pc (b : Byte) : (s.setSt b).pc = s.pc := rfl
@[simp] theorem State.setSt_stack (b : Byte) : (s.setSt b).stack = s.stack := rfl
@[simp] theorem State.setSt_sp (b : Byte) : (s.setSt b).sp = s.sp := rfl
@[simp] theorem State.setSt_dt (b : Byte) : (s.setSt b).dt = s.dt := rfl
@[simp] theorem State.setSt_st (b : Byte) : (s.setSt b).st = b := rfl
@[simp] theorem State.setSt_dtAcc (b : Byte) : (s.setSt b).dtAcc = s.dtAcc := rfl
@[simp] theorem State.setSt_stAcc (b : Byte) : (s.setSt b).stAcc = s.stAcc := rfl
@[simp] theorem State.setSt_key (b : Byte) : (s.setSt b).key = s.key := rfl
@[simp] theorem State.setSt_fb (b : Byte) : (s.setSt b).fb = s.fb := rfl
@[simp] theorem State.setSt_mem (b : Byte) : (s.setSt b).mem = s.mem := rfl
@[simp] theorem State.setSt_fault (b : Byte) : (s.setSt b).fault = s.fault := rfl
@[simp] theorem State.setSt_runEnded (b : Byte) : (s.setSt b).runEnded = s.runEnded := rfl
@[simp] theorem State.setSt_frameOut (b : Byte) : (s.setSt b).frameOut = s.frameOut := rfl
@[simp] theorem State.setSt_beepOut (b : Byte) : (s.setSt b).beepOut = s.beepOut := rfl
@[simp] theorem State.setSt_hostTurns (b : Byte) : (s.setSt b).hostTurns = s.hostTurns := rfl
@[simp] theorem State.setSt_hostCalls (b : Byte) : (s.setSt b).hostCalls = s.hostCalls := rfl
@[simp] theorem State.setSt_rndBytes (b : Byte) : (s.setSt b).rndBytes = s.rndBytes := rfl
@[simp] theorem State.setSt_draws (b : Byte) : (s.setSt b).draws = s.draws := rfl

@[simp] theorem State.getV_setSt (b : Byte) (r : Reg) : (s.setSt b).getV r = s.getV r := rfl
@[simp] theorem State.memRead_setSt (b : Byte) (c : Nat) : (s.setSt b).memRead c = s.memRead c := rfl
@[simp] theorem State.keyPressed_setSt (b : Byte) (k : Nat) : (s.setSt b).keyPressed k = s.keyPressed k := rfl
@[simp] theorem State.slot_setSt (b : Byte) (k : Nat) : (s.setSt b).slot k = s.slot k := rfl
@[simp] theorem State.instrPc_setSt (b : Byte) : (s.setSt b).instrPc = s.instrPc := rfl

/-! ### `State.setFb` -/

@[simp] theorem State.setFb_v (f : Frame) : (s.setFb f).v = s.v := rfl
@[simp] theorem State.setFb_i (f : Frame) : (s.setFb f).i = s.i := rfl
@[simp] theorem State.setFb_pc (f : Frame) : (s.setFb f).pc = s.pc := rfl
@[simp] theorem State.setFb_stack (f : Frame) : (s.setFb f).stack = s.stack := rfl
@[simp] theorem State.setFb_sp (f : Frame) : (s.setFb f).sp = s.sp := rfl
@[simp] theorem State.setFb_dt (f : Frame) : (s.setFb f).dt = s.dt := rfl
@[simp] theorem State.setFb_st (f : Frame) : (s.setFb f).st = s.st := rfl
@[simp] theorem State.setFb_dtAcc (f : Frame) : (s.setFb f).dtAcc = s.dtAcc := rfl
@[simp] theorem State.setFb_stAcc (f : Frame) : (s.setFb f).stAcc = s.stAcc := rfl
@[simp] theorem State.setFb_key (f : Frame) : (s.setFb f).key = s.key := rfl
@[simp] theorem State.setFb_fb (f : Frame) : (s.setFb f).fb = f := rfl
@[simp] theorem State.setFb_mem (f : Frame) : (s.setFb f).mem = s.mem := rfl
@[simp] theorem State.setFb_fault (f : Frame) : (s.setFb f).fault = s.fault := rfl
@[simp] theorem State.setFb_runEnded (f : Frame) : (s.setFb f).runEnded = s.runEnded := rfl
@[simp] theorem State.setFb_frameOut (f : Frame) : (s.setFb f).frameOut = s.frameOut := rfl
@[simp] theorem State.setFb_beepOut (f : Frame) : (s.setFb f).beepOut = s.beepOut := rfl
@[simp] theorem State.setFb_hostTurns (f : Frame) : (s.setFb f).hostTurns = s.hostTurns := rfl
@[simp] theorem State.setFb_hostCalls (f : Frame) : (s.setFb f).hostCalls = s.hostCalls := rfl
@[simp] theorem State.setFb_rndBytes (f : Frame) : (s.setFb f).rndBytes = s.rndBytes := rfl
@[simp] theorem State.setFb_draws (f : Frame) : (s.setFb f).draws = s.draws := rfl

@[simp] theorem State.getV_setFb (f : Frame) (r : Reg) : (s.setFb f).getV r = s.getV r := rfl
@[simp] theorem State.memRead_setFb (f : Frame) (c : Nat) : (s.setFb f).memRead c = s.memRead c := rfl
@[simp] theorem State.keyPressed_setFb (f : Frame) (k : Nat) : (s.setFb f).keyPressed k = s.keyPressed k := rfl
@[simp] theorem State.slot_setFb (f : Frame) (k : Nat) : (s.setFb f).slot k = s.slot k := rfl
@[simp] theorem State.instrPc_setFb (f : Frame) : (s.setFb f).instrPc = s.instrPc := rfl

/-! ### `State.memWrite` -/

@[simp] theorem State.memWrite_v (a : Nat) (b : Byte) : (s.memWrite a b).v = s.v := rfl
@[simp] theorem State.memWrite_i (a : Nat) (b : Byte) : (s.memWrite a b).i = s.i := rfl
@[simp] theorem State.memWrite_pc (a : Nat) (b : Byte) : (s.memWrite a b).pc = s.pc := rfl
@[simp] theorem State.memWrite_stack (a : Nat) (b : Byte) : (s.memWrite a b).stack = s.stack := rfl
@[simp] theorem State.memWrite_sp (a : Nat) (b : Byte) : (s.memWrite a b).sp = s.sp := rfl
@[simp] theorem State.memWrite_dt (a : Nat) (b : Byte) : (s.memWrite a b).dt = s.dt := rfl
@[simp] theorem State.memWrite_st (a : Nat) (b : Byte) : (s.memWrite a b).st = s.st := rfl
@[simp] theorem State.memWrite_dtAcc (a : Nat) (b : Byte) : (s.memWrite a b).dtAcc = s.dtAcc := rfl
@[simp] theorem State.memWrite_stAcc (a : Nat) (b : Byte) : (s.memWrite a b).stAcc = s.stAcc := rfl
@[simp] theorem State.memWrite_key (a : Nat) (b : Byte) : (s.memWrite a b).key = s.key := rfl
@[simp] theorem State.memWrite_fb (a : Nat) (b : Byte) : (s.memWrite a b).fb = s.fb := rfl
@[simp] theorem State.memWrite_mem (a : Nat) (b : Byte) : (s.memWrite a b).mem = s.mem.write a b := rfl
@[simp] theorem State.memWrite_fault (a : Nat) (b : Byte) : (s.memWrite a b).fault = s.fault := rfl
@[simp] theorem State.memWrite_runEnded (a : Nat) (b : Byte) : (s.memWrite a b).runEnded = s.runEnded := rfl
@[simp] theorem State.memWrite_frameOut (a : Nat) (b : Byte) : (s.memWrite a b).frameOut = s.frameOut := rfl
@[simp] theorem State.memWrite_beepOut (a : Nat) (b : Byte) : (s.memWrite a b).beepOut = s.beepOut := rfl
@[simp] theorem State.memWrite_hostTurns (a : Nat) (b : Byte) : (s.memWrite a b).hostTurns = s.hostTurns := rfl
@[simp] theorem State.memWrite_hostCalls (a : Nat) (b : Byte) : (s.memWrite a b).hostCalls = s.hostCalls := rfl
@[simp] theorem State.memWrite_rndBytes (a : Nat) (b : Byte) : (s.memWrite a b).rndBytes = s.rndBytes := rfl
@[simp] theorem State.memWrite_draws (a : Nat) (b : Byte) : (s.memWrite a b).draws = s.draws := rfl

@[simp] theorem State.getV_memWrite (a : Nat) (b : Byte) (r : Reg) : (s.memWrite a b).getV r = s.getV r := rfl
@[simp] theorem State.keyPressed_memWrite (a : Nat) (b : Byte) (k : Nat) : (s.memWrite a b).keyPressed k = s.keyPressed k := rfl
@[simp] theorem State.slot_memWrite (a : Nat) (b : Byte) (k : Nat) : (s.memWrite a b).slot k = s.slot k := rfl
@[simp] theorem State.instrPc_memWrite (a : Nat) (b : Byte) : (s.memWrite a b).instrPc = s.instrPc := rfl

/-! ### `State.raiseFatal` -/

@[simp] theorem State.raiseFatal_v (r : Fatal) : (s.raiseFatal r).v = s.v := rfl
@[simp] theorem State.raiseFatal_i (r : Fatal) : (s.raiseFatal r).i = s.i := rfl
@[simp] theorem State.raiseFatal_pc (r : Fatal) : (s.raiseFatal r).pc = s.pc := rfl
@[simp] theorem State.raiseFatal_stack (r : Fatal) : (s.raiseFatal r).stack = s.stack := rfl
@[simp] theorem State.raiseFatal_sp (r : Fatal) : (s.raiseFatal r).sp = s.sp := rfl
@[simp] theorem State.raiseFatal_dt (r : Fatal) : (s.raiseFatal r).dt = s.dt := rfl
@[simp] theorem State.raiseFatal_st (r : Fatal) : (s.raiseFatal r).st = s.st := rfl
@[simp] theorem State.raiseFatal_dtAcc (r : Fatal) : (s.raiseFatal r).dtAcc = s.dtAcc := rfl
@[simp] theorem State.raiseFatal_stAcc (r : Fatal) : (s.raiseFatal r).stAcc = s.stAcc := rfl
@[simp] theorem State.raiseFatal_key (r : Fatal) : (s.raiseFatal r).key = s.key := rfl
@[simp] theorem State.raiseFatal_fb (r : Fatal) : (s.raiseFatal r).fb = s.fb := rfl
@[simp] theorem State.raiseFatal_mem (r : Fatal) : (s.raiseFatal r).mem = s.mem := rfl
@[simp] theorem State.raiseFatal_fault (r : Fatal) : (s.raiseFatal r).fault = some r := rfl
@[simp] theorem State.raiseFatal_runEnded (r : Fatal) : (s.raiseFatal r).runEnded = s.runEnded := rfl
@[simp] theorem State.raiseFatal_frameOut (r : Fatal) : (s.raiseFatal r).frameOut = s.frameOut := rfl
@[simp] theorem State.raiseFatal_beepOut (r : Fatal) : (s.raiseFatal r).beepOut = s.beepOut := rfl
@[simp] theorem State.raiseFatal_hostTurns (r : Fatal) : (s.raiseFatal r).hostTurns = s.hostTurns := rfl
@[simp] theorem State.raiseFatal_hostCalls (r : Fatal) : (s.raiseFatal r).hostCalls = s.hostCalls := rfl
@[simp] theorem State.raiseFatal_rndBytes (r : Fatal) : (s.raiseFatal r).rndBytes = s.rndBytes := rfl
@[simp] theorem State.raiseFatal_draws (r : Fatal) : (s.raiseFatal r).draws = s.draws := rfl

@[simp] theorem State.getV_raiseFatal (f : Fatal) (r : Reg) : (s.raiseFatal f).getV r = s.getV r := rfl
@[simp] theorem State.memRead_raiseFatal (r : Fatal) (c : Nat) : (s.raiseFatal r).memRead c = s.memRead c := rfl
@[simp] theorem State.keyPressed_raiseFatal (r : Fatal) (k : Nat) : (s.raiseFatal r).keyPressed k = s.keyPressed k := rfl
@[simp] theorem State.slot_raiseFatal (r : Fatal) (k : Nat) : (s.raiseFatal r).slot k = s.slot k := rfl
@[simp] theorem State.instrPc_raiseFatal (r : Fatal) : (s.raiseFatal r).instrPc = s.instrPc := rfl

/-! ### `State.advancePc` -/

@[simp] theorem State.advancePc_v : s.advancePc.v = s.v := rfl
@[simp] theorem State.advancePc_i : s.advancePc.i = s.i := rfl
@[simp] theorem State.advancePc_pc : s.advancePc.pc = s.pc + 2 := rfl
@[simp] theorem State.advancePc_stack : s.advancePc.stack = s.stack := rfl
@[simp] theorem State.advancePc_sp : s.advancePc.sp = s.sp := rfl
@[simp] theorem State.advancePc_dt : s.advancePc.dt = s.dt := rfl
@[simp] theorem State.advancePc_st : s.advancePc.st = s.st := rfl
@[simp] theorem State.advancePc_dtAcc : s.advancePc.dtAcc = s.dtAcc := rfl
@[simp] theorem State.advancePc_stAcc : s.advancePc.stAcc = s.stAcc := rfl
@[simp] theorem State.advancePc_key : s.advancePc.key = s.key := rfl
@[simp] theorem State.advancePc_fb : s.advancePc.fb = s.fb := rfl
@[simp] theorem State.advancePc_mem : s.advancePc.mem = s.mem := rfl
@[simp] theorem State.advancePc_fault : s.advancePc.fault = s.fault := rfl
@[simp] theorem State.advancePc_runEnded : s.advancePc.runEnded = s.runEnded := rfl
@[simp] theorem State.advancePc_frameOut : s.advancePc.frameOut = s.frameOut := rfl
@[simp] theorem State.advancePc_beepOut : s.advancePc.beepOut = s.beepOut := rfl
@[simp] theorem State.advancePc_hostTurns : s.advancePc.hostTurns = s.hostTurns := rfl
@[simp] theorem State.advancePc_hostCalls : s.advancePc.hostCalls = s.hostCalls := rfl
@[simp] theorem State.advancePc_rndBytes : s.advancePc.rndBytes = s.rndBytes := rfl
@[simp] theorem State.advancePc_draws : s.advancePc.draws = s.draws := rfl

@[simp] theorem State.getV_advancePc (r : Reg) : s.advancePc.getV r = s.getV r := rfl
@[simp] theorem State.memRead_advancePc (c : Nat) : s.advancePc.memRead c = s.memRead c := rfl
@[simp] theorem State.keyPressed_advancePc (k : Nat) : s.advancePc.keyPressed k = s.keyPressed k := rfl
@[simp] theorem State.slot_advancePc (k : Nat) : s.advancePc.slot k = s.slot k := rfl

/-! ### `State.afterDraw` -/

@[simp] theorem State.afterDraw_v : s.afterDraw.v = s.v := rfl
@[simp] theorem State.afterDraw_i : s.afterDraw.i = s.i := rfl
@[simp] theorem State.afterDraw_pc : s.afterDraw.pc = s.pc := rfl
@[simp] theorem State.afterDraw_stack : s.afterDraw.stack = s.stack := rfl
@[simp] theorem State.afterDraw_sp : s.afterDraw.sp = s.sp := rfl
@[simp] theorem State.afterDraw_dt : s.afterDraw.dt = s.dt := rfl
@[simp] theorem State.afterDraw_st : s.afterDraw.st = s.st := rfl
@[simp] theorem State.afterDraw_dtAcc : s.afterDraw.dtAcc = s.dtAcc := rfl
@[simp] theorem State.afterDraw_stAcc : s.afterDraw.stAcc = s.stAcc := rfl
@[simp] theorem State.afterDraw_key : s.afterDraw.key = s.key := rfl
@[simp] theorem State.afterDraw_fb : s.afterDraw.fb = s.fb := rfl
@[simp] theorem State.afterDraw_mem : s.afterDraw.mem = s.mem := rfl
@[simp] theorem State.afterDraw_fault : s.afterDraw.fault = s.fault := rfl
@[simp] theorem State.afterDraw_runEnded : s.afterDraw.runEnded = s.runEnded := rfl
@[simp] theorem State.afterDraw_frameOut : s.afterDraw.frameOut = s.frameOut := rfl
@[simp] theorem State.afterDraw_beepOut : s.afterDraw.beepOut = s.beepOut := rfl
@[simp] theorem State.afterDraw_hostTurns : s.afterDraw.hostTurns = s.hostTurns := rfl
@[simp] theorem State.afterDraw_hostCalls : s.afterDraw.hostCalls = s.hostCalls := rfl
@[simp] theorem State.afterDraw_rndBytes : s.afterDraw.rndBytes = s.rndBytes.tail := rfl
@[simp] theorem State.afterDraw_draws : s.afterDraw.draws = s.draws + 1 := rfl

@[simp] theorem State.getV_afterDraw (r : Reg) : s.afterDraw.getV r = s.getV r := rfl
@[simp] theorem State.memRead_afterDraw (c : Nat) : s.afterDraw.memRead c = s.memRead c := rfl
@[simp] theorem State.keyPressed_afterDraw (k : Nat) : s.afterDraw.keyPressed k = s.keyPressed k := rfl
@[simp] theorem State.slot_afterDraw (k : Nat) : s.afterDraw.slot k = s.slot k := rfl
@[simp] theorem State.instrPc_afterDraw : s.afterDraw.instrPc = s.instrPc := rfl

/-! ### `State.tickTimersBy` -/

@[simp] theorem State.tickTimersBy_v (p : Nat) : (s.tickTimersBy p).v = s.v := rfl
@[simp] theorem State.tickTimersBy_i (p : Nat) : (s.tickTimersBy p).i = s.i := rfl
@[simp] theorem State.tickTimersBy_pc (p : Nat) : (s.tickTimersBy p).pc = s.pc := rfl
@[simp] theorem State.tickTimersBy_stack (p : Nat) : (s.tickTimersBy p).stack = s.stack := rfl
@[simp] theorem State.tickTimersBy_sp (p : Nat) : (s.tickTimersBy p).sp = s.sp := rfl
@[simp] theorem State.tickTimersBy_dt (p : Nat) : (s.tickTimersBy p).dt = (tickTimer p (s.dt, s.dtAcc)).1 := rfl
@[simp] theorem State.tickTimersBy_st (p : Nat) : (s.tickTimersBy p).st = (tickTimer p (s.st, s.stAcc)).1 := rfl
@[simp] theorem State.tickTimersBy_dtAcc (p : Nat) : (s.tickTimersBy p).dtAcc = (tickTimer p (s.dt, s.dtAcc)).2 := rfl
@[simp] theorem State.tickTimersBy_stAcc (p : Nat) : (s.tickTimersBy p).stAcc = (tickTimer p (s.st, s.stAcc)).2 := rfl
@[simp] theorem State.tickTimersBy_key (p : Nat) : (s.tickTimersBy p).key = s.key := rfl
@[simp] theorem State.tickTimersBy_fb (p : Nat) : (s.tickTimersBy p).fb = s.fb := rfl
@[simp] theorem State.tickTimersBy_mem (p : Nat) : (s.tickTimersBy p).mem = s.mem := rfl
@[simp] theorem State.tickTimersBy_fault (p : Nat) : (s.tickTimersBy p).fault = s.fault := rfl
@[simp] theorem State.tickTimersBy_runEnded (p : Nat) : (s.tickTimersBy p).runEnded = s.runEnded := rfl
@[simp] theorem State.tickTimersBy_frameOut (p : Nat) : (s.tickTimersBy p).frameOut = s.frameOut := rfl
@[simp] theorem State.tickTimersBy_beepOut (p : Nat) : (s.tickTimersBy p).beepOut = s.beepOut := rfl
@[simp] theorem State.tickTimersBy_hostTurns (p : Nat) : (s.tickTimersBy p).hostTurns = s.hostTurns := rfl
@[simp] theorem State.tickTimersBy_hostCalls (p : Nat) : (s.tickTimersBy p).hostCalls = s.hostCalls := rfl
@[simp] theorem State.tickTimersBy_rndBytes (p : Nat) : (s.tickTimersBy p).rndBytes = s.rndBytes := rfl
@[simp] theorem State.tickTimersBy_draws (p : Nat) : (s.tickTimersBy p).draws = s.draws := rfl

@[simp] theorem State.getV_tickTimersBy (p : Nat) (r : Reg) : (s.tickTimersBy p).getV r = s.getV r := rfl
@[simp] theorem State.memRead_tickTimersBy (p : Nat) (c : Nat) : (s.tickTimersBy p).memRead c = s.memRead c := rfl
@[simp] theorem State.keyPressed_tickTimersBy (p : Nat) (k : Nat) : (s.tickTimersBy p).keyPressed k = s.keyPressed k := rfl
@[simp] theorem State.slot_tickTimersBy (p : Nat) (k : Nat) : (s.tickTimersBy p).slot k = s.slot k := rfl
@[simp] theorem State.instrPc_tickTimersBy (p : Nat) : (s.tickTimersBy p).instrPc = s.instrPc := rfl

/-! ### `State.tickTimers` -/

@[simp] theorem State.tickTimers_v : s.tickTimers.v = s.v := rfl
@[simp] theorem State.tickTimers_i : s.tickTimers.i = s.i := rfl
@[simp] theorem State.tickTimers_pc : s.tickTimers.pc = s.pc := rfl
@[simp] theorem State.tickTimers_stack : s.tickTimers.stack = s.stack := rfl
@[simp] theorem State.tickTimers_sp : s.tickTimers.sp = s.sp := rfl
@[simp] theorem State.tickTimers_dt : s.tickTimers.dt = (tickTimer timerPeriod (s.dt, s.dtAcc)).1 := rfl
@[simp] theorem State.tickTimers_st : s.tickTimers.st = (tickTimer timerPeriod (s.st, s.stAcc)).1 := rfl
@[simp] theorem State.tickTimers_dtAcc : s.tickTimers.dtAcc = (tickTimer timerPeriod (s.dt, s.dtAcc)).2 := rfl
@[simp] theorem State.tickTimers_stAcc : s.tickTimers.stAcc = (tickTimer timerPeriod (s.st, s.stAcc)).2 := rfl
@[simp] theorem State.tickTimers_key : s.tickTimers.key = s.key := rfl
@[simp] theorem State.tickTimers_fb : s.tickTimers.fb = s.fb := rfl
@[simp] theorem State.tickTimers_mem : s.tickTimers.mem = s.mem := rfl
@[simp] theorem State.tickTimers_fault : s.tickTimers.fault = s.fault := rfl
@[simp] theorem State.tickTimers_runEnded : s.tickTimers.runEnded = s.runEnded := rfl
@[simp] theorem State.tickTimers_frameOut : s.tickTimers.frameOut = s.frameOut := rfl
@[simp] theorem State.tickTimers_beepOut : s.tickTimers.beepOut = s.beepOut := rfl
@[simp] theorem State.tickTimers_hostTurns : s.tickTimers.hostTurns = s.hostTurns := rfl
@[simp] theorem State.tickTimers_hostCalls : s.tickTimers.hostCalls = s.hostCalls := rfl
@[simp] theorem State.tickTimers_rndBytes : s.tickTimers.rndBytes = s.rndBytes := rfl
@[simp] theorem State.tickTimers_draws : s.tickTimers.draws = s.draws := rfl

@[simp] theorem State.getV_tickTimers (r : Reg) : s.tickTimers.getV r = s.getV r := rfl
@[simp] theorem State.memRead_tickTimers (c : Nat) : s.tickTimers.memRead c = s.memRead c := rfl
@[simp] theorem State.keyPressed_tickTimers (k : Nat) : s.tickTimers.keyPressed k = s.keyPressed k := rfl
@[simp] theorem State.slot_tickTimers (k : Nat) : s.tickTimers.slot k = s.slot k := rfl
@[simp] theorem State.instrPc_tickTimers : s.tickTimers.instrPc = s.instrPc := rfl

/-! ### `State.hostExchange` -/

@[simp] theorem State.hostExchange_v : s.hostExchange.v = s.v := rfl
@[simp] theorem State.hostExchange_i : s.hostExchange.i = s.i := rfl
@[simp] theorem State.hostExchange_pc : s.hostExchange.pc = s.pc := rfl
@[simp] theorem State.hostExchange_stack : s.hostExchange.stack = s.stack := rfl
@[simp] theorem State.hostExchange_sp : s.hostExchange.sp = s.sp := rfl
@[simp] theorem State.hostExchange_dt : s.hostExchange.dt = s.dt := rfl
@[simp] theorem State.hostExchange_st : s.hostExchange.st = s.st := rfl
@[simp] theorem State.hostExchange_dtAcc : s.hostExchange.dtAcc = s.dtAcc := rfl
@[simp] theorem State.hostExchange_stAcc : s.hostExchange.stAcc = s.stAcc := rfl
@[simp] theorem State.hostExchange_key : s.hostExchange.key = s.hostTurn.keysIn := rfl
@[simp] theorem State.hostExchange_fb : s.hostExchange.fb = s.fb := rfl
@[simp] theorem State.hostExchange_mem : s.hostExchange.mem = s.mem := rfl
@[simp] theorem State.hostExchange_fault : s.hostExchange.fault = s.fault := rfl
@[simp] theorem State.hostExchange_runEnded : s.hostExchange.runEnded = if s.hostTurn.quitIn then true else s.runEnded := rfl
@[simp] theorem State.hostExchange_frameOut : s.hostExchange.frameOut = s.fb := rfl
@[simp] theorem State.hostExchange_beepOut : s.hostExchange.beepOut = decide (0 < s.st.toNat) := rfl
@[simp] theorem State.hostExchange_hostTurns : s.hostExchange.hostTurns = s.hostTurns.tail := rfl
@[simp] theorem State.hostExchange_hostCalls : s.hostExchange.hostCalls = s.hostCalls + 1 := rfl
@[simp] theorem State.hostExchange_rndBytes : s.hostExchange.rndBytes = s.rndBytes := rfl
@[simp] theorem State.hostExchange_draws : s.hostExchange.draws = s.draws := rfl

@[simp] theorem State.getV_hostExchange (r : Reg) : s.hostExchange.getV r = s.getV r := rfl
@[simp] theorem State.memRead_hostExchange (c : Nat) : s.hostExchange.memRead c = s.memRead c := rfl
@[simp] theorem State.slot_hostExchange (k : Nat) : s.hostExchange.slot k = s.slot k := rfl
@[simp] theorem State.instrPc_hostExchange : s.hostExchange.instrPc = s.instrPc := rfl

/-! ### Reading a register that was written -/

theorem State.getV_setV (x r : Reg) (b : Byte) : (s.setV x b).getV r = if r = x then b else s.getV r := by
  unfold State.getV State.setV
  by_cases h : r = x
  · simp [h]
  · simp only [h, if_false]
    exact Vector.getElem_set_ne (h := fun e => h (Fin.ext e.symm)) ..

@[simp] theorem State.getV_setV_self (x : Reg) (b : Byte) : (s.setV x b).getV x = b := by simp [State.getV_setV]

theorem State.getV_setV_ne {x r : Reg} (h : r ≠ x) (b : Byte) : (s.setV x b).getV r = s.getV r := by
  simp [State.getV_setV, h]

/-! ### The address of the instruction, seen after the fetch advance -/

@[simp] theorem State.instrPc_advancePc : s.advancePc.instrPc = s.pc := by
  simp [State.instrPc]

@[simp] theorem State.skip_eq : s.skip = s.setPc (s.pc + 2) := rfl

theorem State.skipIf_eq (c : Bool) : s.skipIf c = s.setPc (if c then s.pc + 2 else s.pc) := by
  cases c <;> rfl

end Sys2Proof.Machine
end

