-- ==== Sys2Proof/Laws/Memory.lean ====
section
/-! SUPPORT. The laws of memory: a read after a write (spec/20_memory.md R63), the canonical form that every operation
keeps, and what the byte-wise accesses do. -/

namespace Sys2Proof.Machine

/-! ## The list -/

theorem Memory.lookup_insert (m : Memory) (a b : Nat) (v : Byte) :
    (m.insert a v).lookup b = if b = a then some v else m.lookup b := by
  induction m with
  | nil => simp [Memory.insert, Memory.lookup]
  | cons c m ih =>
    obtain ⟨d, w⟩ := c
    simp only [Memory.insert]
    split
    · simp [Memory.lookup]
    · split
      · subst d
        by_cases h : b = a <;> simp [Memory.lookup, h]
      · rename_i hne
        simp only [Memory.lookup, ih]
        by_cases h : b = d
        · subst h
          simp [Ne.symm hne]
        · simp [h]

theorem Memory.lookup_erase (m : Memory) (a b : Nat) :
    (m.erase a).lookup b = if b = a then none else m.lookup b := by
  induction m with
  | nil => simp [Memory.erase, Memory.lookup]
  | cons c m ih =>
    obtain ⟨d, w⟩ := c
    simp only [Memory.erase] at ih ⊢
    by_cases h : d = a
    · subst h
      by_cases hb : b = d <;> simp_all [Memory.lookup]
    · by_cases hb : b = d
      · subst hb
        simp [Memory.lookup, h]
      · simpa [Memory.lookup, h, hb] using ih

/-- A read after a write: the byte written at its address, and every other byte as before. -/
theorem Memory.read_write (m : Memory) (a b : Nat) (v : Byte) :
    (m.write a v).read b = if b = a then v else m.read b := by
  unfold Memory.write Memory.read
  split
  · rename_i h
    rw [Memory.lookup_erase]
    split
    · subst b
      simp [unlistedByte, h]
    · rfl
  · rw [Memory.lookup_insert]
    split <;> simp

/-! ## The canonical form -/

theorem Memory.mem_insert {m : Memory} {a : Nat} {v : Byte} {c : Host.Cell} (h : c ∈ m.insert a v) :
    c = (a, v) ∨ c ∈ m := by
  induction m with
  | nil => simpa [Memory.insert] using h
  | cons d m ih =>
    obtain ⟨e, w⟩ := d
    simp only [Memory.insert] at h
    split at h
    · simpa using h
    · split at h
      · rcases List.mem_cons.1 h with h | h
        · exact .inl h
        · exact .inr (List.mem_cons_of_mem _ h)
      · rcases List.mem_cons.1 h with h | h
        · exact .inr (h ▸ List.mem_cons_self ..)
        · exact (ih h).imp id (List.mem_cons_of_mem _)

theorem Memory.pairwise_insert {m : Memory} (a : Nat) (v : Byte) (h : m.Pairwise fun c d => c.1 < d.1) :
    (m.insert a v).Pairwise fun c d => c.1 < d.1 := by
  induction m with
  | nil => simp [Memory.insert]
  | cons d m ih =>
    obtain ⟨e, w⟩ := d
    have h' := List.pairwise_cons.1 h
    simp only [Memory.insert]
    split
    · rename_i hlt
      refine List.pairwise_cons.2 ⟨fun c hc => ?_, h⟩
      rcases List.mem_cons.1 hc with rfl | hc
      · exact hlt
      · exact hlt.trans (h'.1 c hc)
    · split
      · subst e
        exact List.pairwise_cons.2 ⟨fun c hc => h'.1 c hc, h'.2⟩
      · refine List.pairwise_cons.2 ⟨fun c hc => ?_, ih h'.2⟩
        rcases Memory.mem_insert hc with rfl | hc
        · show e < a
          omega
        · exact h'.1 c hc

/-- A write at an address of memory keeps the canonical form. -/
theorem Memory.wf_write {m : Memory} {a : Nat} (ha : a ≤ lastAddr) (v : Byte) (h : m.wf) : (m.write a v).wf := by
  unfold Memory.write
  split
  · exact ⟨h.1.filter _, fun c hc => h.2 c (List.mem_filter.1 hc).1⟩
  · rename_i hv
    refine ⟨Memory.pairwise_insert a v h.1, fun c hc => ?_⟩
    rcases Memory.mem_insert hc with rfl | hc
    · exact ⟨ha, hv⟩
    · exact h.2 c hc

theorem State.reset_mem_wf : State.reset.mem.wf := by decide

/-! ## Reads and writes of the state -/

theorem State.memRead_memWrite (s : State) (a c : Nat) (b : Byte) :
    (s.memWrite a b).memRead c = if c = a then b else s.memRead c :=
  Memory.read_write ..

/-- What copying bytes does to memory. -/
theorem State.memRead_copyBytes (bs : List Byte) (s : State) (a c : Nat) :
    (s.copyBytes a bs).memRead c = if a ≤ c then bs[c - a]?.getD (s.memRead c) else s.memRead c := by
  induction bs generalizing s a with
  | nil => simp [State.copyBytes]
  | cons b bs ih =>
    simp only [State.copyBytes, ih, State.memRead_memWrite]
    rcases Nat.lt_trichotomy c a with h | rfl | h
    · simp [Nat.not_le.2 h, Nat.not_le.2 (Nat.lt_succ_of_lt h), Nat.ne_of_lt h]
    · simp
    · obtain ⟨k, rfl⟩ : ∃ k, c = a + 1 + k := ⟨c - (a + 1), by omega⟩
      simp [show a + 1 + k - a = k + 1 by omega, show a ≤ a + 1 + k by omega, show a + 1 + k ≠ a by omega]

/-- An address the bytes are copied to reads as its byte. -/
theorem State.memRead_copyBytes_inside {bs : List Byte} (s : State) {a k : Nat} (h : k < bs.length) :
    (s.copyBytes a bs).memRead (a + k) = bs[k] := by
  rw [State.memRead_copyBytes, if_pos (Nat.le_add_right a k), Nat.add_sub_cancel_left, List.getElem?_eq_getElem h, Option.getD_some]

/-- An address outside the bytes copied reads as before. -/
theorem State.memRead_copyBytes_outside {bs : List Byte} (s : State) {a c : Nat} (h : c < a ∨ a + bs.length ≤ c) :
    (s.copyBytes a bs).memRead c = s.memRead c := by
  rw [State.memRead_copyBytes]
  split
  · rw [List.getElem?_eq_none (by omega), Option.getD_none]
  · rfl

/-- Copying to their addresses the bytes that construction puts there leaves an empty memory list empty. -/
theorem State.mem_copyBytes_construction {bs : List Byte} {s : State} {a : Nat} (hs : s.mem = [])
    (h : ∀ k (hk : k < bs.length), constructionByte? (a + k) = some bs[k]) : (s.copyBytes a bs).mem = [] := by
  induction bs generalizing s a with
  | nil => exact hs
  | cons b bs ih =>
    refine ih ?_ fun k hk => ?_
    · have hb : constructionByte? a = some b := h 0 (Nat.zero_lt_succ _)
      show s.mem.write a b = []
      rw [Memory.write, if_pos hb, hs]
      rfl
    · have hb := h (k + 1) (Nat.succ_lt_succ hk)
      rwa [show a + (k + 1) = a + 1 + k by omega] at hb

/-- Copying bytes changes memory only. -/
theorem State.copyBytes_eq (bs : List Byte) (s : State) (a : Nat) :
    s.copyBytes a bs = { s with mem := (s.copyBytes a bs).mem } := by
  induction bs generalizing s a with
  | nil => rfl
  | cons b bs ih =>
    simp only [State.copyBytes]
    conv_lhs => rw [ih]
    rfl

theorem State.copyBytes_wf {bs : List Byte} {s : State} {a : Nat} (h : s.mem.wf) (ha : a + bs.length ≤ lastAddr + 1) :
    (s.copyBytes a bs).mem.wf := by
  induction bs generalizing s a with
  | nil => exact h
  | cons b bs ih =>
    simp only [List.length_cons] at ha
    exact ih (Memory.wf_write (by omega) b h) (by omega)

/-! ## Byte-wise stores (spec/20_memory.md R53, spec/42_index_memory.md R157) -/

/-- A store inside memory writes its bytes and raises nothing. -/
theorem State.storeBytes_inRange {bs : List Byte} {s : State} {a : Nat} (h : a + bs.length ≤ lastAddr + 1) :
    s.storeBytes a bs = s.copyBytes a bs := by
  induction bs generalizing s a with
  | nil => rfl
  | cons b bs ih =>
    simp only [List.length_cons] at h
    simp only [State.storeBytes, State.copyBytes]
    rw [if_pos (by omega), ih (by omega)]

/-- A store that leaves memory raises MEM_RANGE at the first address past its end. -/
theorem State.storeBytes_outOfRange {bs : List Byte} {s : State} {a : Nat} (hb : bs ≠ [])
    (h : lastAddr + 1 < a + bs.length) :
    (s.storeBytes a bs).fault = some (.memRange s.instrPc (max a (lastAddr + 1))) := by
  induction bs generalizing s a with
  | nil => exact absurd rfl hb
  | cons b bs ih =>
    simp only [State.storeBytes]
    simp only [List.length_cons] at h
    split
    · rename_i ha
      rw [ih (by rintro rfl; simp at h; omega) (by omega)]
      simp [show max (a + 1) (lastAddr + 1) = max a (lastAddr + 1) by omega]
    · simp [show max a (lastAddr + 1) = a by omega]

/-- A store changes memory and FAULT only. -/
theorem State.storeBytes_eq (bs : List Byte) (s : State) (a : Nat) :
    s.storeBytes a bs = { s with mem := (s.storeBytes a bs).mem, fault := (s.storeBytes a bs).fault } := by
  induction bs generalizing s a with
  | nil => rfl
  | cons b bs ih =>
    simp only [State.storeBytes]
    split
    · conv_lhs => rw [ih]
      rfl
    · rfl

theorem State.storeBytes_wf {bs : List Byte} {s : State} {a : Nat} (h : s.mem.wf) : (s.storeBytes a bs).mem.wf := by
  induction bs generalizing s a with
  | nil => exact h
  | cons b bs ih =>
    simp only [State.storeBytes]
    split
    · rename_i ha
      exact ih (Memory.wf_write ha b h)
    · exact h

/-! ## Byte-wise loads (spec/20_memory.md R52, spec/42_index_memory.md R155) -/

/-- A load inside memory gives each register of the list its byte and raises nothing. -/
theorem State.getV_loadRegs {rs : List Reg} {s : State} {base : Nat} (h : ∀ k ∈ rs, base + k.val ≤ lastAddr) (r : Reg) :
    (s.loadRegs base rs).getV r = if r ∈ rs then s.memRead (base + r.val) else s.getV r := by
  induction rs generalizing s with
  | nil => simp [State.loadRegs]
  | cons k ks ih =>
    simp only [State.loadRegs]
    rw [if_pos (h k (by simp)), ih (fun j hj => h j (by simp [hj])), State.memRead_setV, State.getV_setV]
    by_cases hm : r ∈ ks
    · simp [hm]
    · by_cases hk : r = k <;> simp [hk, hm]

theorem State.fault_loadRegs {rs : List Reg} {s : State} {base : Nat} (h : ∀ k ∈ rs, base + k.val ≤ lastAddr) :
    (s.loadRegs base rs).fault = s.fault := by
  induction rs generalizing s with
  | nil => rfl
  | cons k ks ih =>
    simp only [State.loadRegs]
    rw [if_pos (h k (by simp)), ih (fun j hj => h j (by simp [hj])), State.setV_fault]

/-- A load stops at the first register whose byte lies past the end of memory. -/
theorem State.loadRegs_outOfRange {pre post : List Reg} {k : Reg} {s : State} {base : Nat}
    (hpre : ∀ j ∈ pre, base + j.val ≤ lastAddr) (hk : lastAddr < base + k.val) :
    (s.loadRegs base (pre ++ k :: post)).fault = some (.memRange s.instrPc (base + k.val)) := by
  induction pre generalizing s with
  | nil => simp [State.loadRegs, Nat.not_le.2 hk]
  | cons j pre ih =>
    simp only [List.cons_append, State.loadRegs]
    rw [if_pos (hpre j (by simp)), ih (fun i hi => hpre i (by simp [hi])), State.instrPc_setV]

/-- A load changes the general registers and FAULT only. -/
theorem State.loadRegs_eq (rs : List Reg) (s : State) (base : Nat) :
    s.loadRegs base rs = { s with v := (s.loadRegs base rs).v, fault := (s.loadRegs base rs).fault } := by
  induction rs generalizing s with
  | nil => rfl
  | cons k ks ih =>
    simp only [State.loadRegs]
    split
    · conv_lhs => rw [ih]
      rfl
    · rfl

/-! ## The register range V0..Vx -/

theorem mem_regsUpTo (x r : Reg) : r ∈ regsUpTo x ↔ r ≤ x := by revert x r; decide

theorem regBytes_length (s : State) (x : Reg) : (regBytes s x).length = x.val + 1 := by
  have := x.isLt
  simp [regBytes, regsUpTo, allRegs]
  omega

theorem regBytes_getElem? (s : State) (x r : Reg) :
    (regBytes s x)[r.val]? = if r ≤ x then some (s.getV r) else none := by
  have h : ∀ x r : Reg, (regsUpTo x)[r.val]? = if r ≤ x then some r else none := by decide
  rw [regBytes, List.getElem?_map, h]
  split <;> simp

end Sys2Proof.Machine
end

