-- ==== Sys2Proof/Laws/Display.lean ====
section
/-! SUPPORT. The laws of the framebuffer and of drawing (spec/43_display.md R171 to R173): which pixels a drawing flips, and
when it hits. -/

namespace Sys2Proof.Machine

@[simp] theorem Frame.pixel_clear (r c : Nat) : Frame.clear.pixel r c = false := by
  simp only [Frame.pixel, Frame.row, Frame.clear]
  by_cases h : r < 32 <;> simp [h]

theorem Frame.pixel_flip (f : Frame) {y x : Nat} (hy : y < 32) (hx : x < 64) (r c : Nat) :
    (f.flip y x).pixel r c = (f.pixel r c ^^ decide (r = y ∧ c = x)) := by
  simp only [Frame.pixel, Frame.row, Frame.flip, Vector.getElem?_setIfInBounds]
  by_cases h : y = r
  · subst h
    simp [hy, BitVec.getLsbD_twoPow, hx, eq_comm]
  · simp [h, Ne.symm h]

/-- Two frames with the same pixels are the same frame. -/
theorem Frame.ext_pixel {f g : Frame} (h : ∀ r c, r < 32 → c < 64 → f.pixel r c = g.pixel r c) : f = g := by
  refine Vector.ext fun r hr => BitVec.eq_of_getLsbD_eq fun c hc => ?_
  have := h r c hr hc
  simpa [Frame.pixel, Frame.row, hr] using this

theorem pixel_drawBit (lit : Bool) {y x : Nat} (hy : y < 32) (hx : x < 64) (d : Frame × Bool) (r c : Nat) :
    (drawBit lit y x d).1.pixel r c = (d.1.pixel r c ^^ (lit && decide (r = y ∧ c = x))) := by
  cases lit <;> simp [drawBit, Frame.pixel_flip, hy, hx]

theorem hit_drawBit (lit : Bool) (y x : Nat) (d : Frame × Bool) :
    (drawBit lit y x d).2 = (d.2 || (lit && d.1.pixel y x)) := by
  cases lit <;> simp [drawBit]

/-- One sprite byte, columns `k` to `k + m - 1`: the pixels it flips. -/
theorem pixel_drawCols (b : Byte) {y : Nat} (hy : y < 32) (sx m k : Nat) (d : Frame × Bool) (r c : Nat) :
    (drawCols b y sx (List.range' k m) d).1.pixel r c =
      (d.1.pixel r c ^^
        (decide (r = y ∧ sx + k ≤ c ∧ c < sx + k + m ∧ c ≤ 63) && b.getLsbD (7 - (c - sx)))) := by
  induction m generalizing k d with
  | zero =>
    have : ¬(r = y ∧ sx + k ≤ c ∧ c < sx + k + 0 ∧ c ≤ 63) := by omega
    simp only [List.range'_zero, drawCols, decide_eq_false this, Bool.false_and, Bool.xor_false]
  | succ m ih =>
    simp only [List.range'_succ, drawCols]
    split
    · have : ¬(r = y ∧ sx + k ≤ c ∧ c < sx + k + (m + 1) ∧ c ≤ 63) := by omega
      simp only [decide_eq_false this, Bool.false_and, Bool.xor_false]
    · rename_i h
      rw [ih, pixel_drawBit _ hy (by omega), Bool.xor_assoc]
      congr 1
      by_cases hc : c = sx + k
      · subst hc
        have h1 : ¬(r = y ∧ sx + (k + 1) ≤ sx + k ∧ sx + k < sx + (k + 1) + m ∧ sx + k ≤ 63) := by omega
        have h2 : (r = y ∧ sx + k ≤ sx + k ∧ sx + k < sx + k + (m + 1) ∧ sx + k ≤ 63) ↔ r = y := by omega
        simp only [decide_eq_false h1, h2, Nat.add_sub_cancel_left, and_true, Bool.false_and, Bool.xor_false]
        exact Bool.and_comm ..
      · have h2 : (r = y ∧ sx + (k + 1) ≤ c ∧ c < sx + (k + 1) + m ∧ c ≤ 63) ↔
            (r = y ∧ sx + k ≤ c ∧ c < sx + k + (m + 1) ∧ c ≤ 63) := by omega
        simp [h2, hc]

/-- One sprite byte: it hits when a lit bit meets a lit pixel of the row. -/
theorem hit_drawCols (b : Byte) {y : Nat} (hy : y < 32) (sx m k : Nat) (d : Frame × Bool) :
    (drawCols b y sx (List.range' k m) d).2 = true ↔
      d.2 = true ∨ ∃ c, sx + k ≤ c ∧ c < sx + k + m ∧ c ≤ 63 ∧ b.getLsbD (7 - (c - sx)) = true ∧
        d.1.pixel y c = true := by
  induction m generalizing k d with
  | zero =>
    simp only [List.range'_zero, drawCols]
    exact ⟨.inl, fun h => h.elim id fun ⟨c, h⟩ => by omega⟩
  | succ m ih =>
    simp only [List.range'_succ, drawCols]
    split
    · exact ⟨.inl, fun h => h.elim id fun ⟨c, h⟩ => by omega⟩
    · rename_i h
      rw [ih, hit_drawBit, Bool.or_eq_true, Bool.and_eq_true]
      constructor
      · rintro ((h2 | ⟨hb, hp⟩) | ⟨c, h1, h2, h3, hb, hp⟩)
        · exact .inl h2
        · exact .inr ⟨sx + k, by omega, by omega, by omega, by simpa using hb, hp⟩
        · refine .inr ⟨c, by omega, by omega, h3, hb, ?_⟩
          rw [pixel_drawBit _ hy (by omega)] at hp
          simpa [show c ≠ sx + k by omega] using hp
      · rintro (h2 | ⟨c, h1, h2, h3, hb, hp⟩)
        · exact .inl (.inl h2)
        · by_cases hc : c = sx + k
          · subst hc
            exact .inl (.inr ⟨by simpa using hb, hp⟩)
          · refine .inr ⟨c, by omega, by omega, h3, hb, ?_⟩
            rw [pixel_drawBit _ hy (by omega)]
            simpa [hc] using hp

/-- A lit bit of a sprite at origin `(sx, sy)` falls on the pixel in row `r`, column `c`. -/
def spriteLit (sx sy : Nat) (bytes : List Byte) (r c : Nat) : Bool :=
  decide (sy ≤ r ∧ r ≤ 31 ∧ sx ≤ c ∧ c < sx + 8 ∧ c ≤ 63) && (bytes[r - sy]?.getD 0).getLsbD (7 - (c - sx))

/-- The pixels a drawing flips: the lit sprite bits inside the screen. -/
theorem pixel_drawRows (sx y : Nat) (bytes : List Byte) (d : Frame × Bool) (r c : Nat) :
    (drawRows sx y bytes d).1.pixel r c = (d.1.pixel r c ^^ spriteLit sx y bytes r c) := by
  induction bytes generalizing y d with
  | nil => simp [drawRows, spriteLit]
  | cons b bytes ih =>
    simp only [drawRows]
    split
    · have : ¬(y ≤ r ∧ r ≤ 31 ∧ sx ≤ c ∧ c < sx + 8 ∧ c ≤ 63) := by omega
      simp only [spriteLit, decide_eq_false this, Bool.false_and, Bool.xor_false]
    · rename_i h
      rw [ih, List.range_eq_range', pixel_drawCols b (by omega), Bool.xor_assoc]
      congr 1
      simp only [spriteLit, Nat.add_zero]
      by_cases hr : r = y
      · subst hr
        simp [show r ≤ 31 by omega]
      · by_cases hlt : y < r
        · obtain ⟨k, rfl⟩ : ∃ k, r = y + 1 + k := ⟨r - (y + 1), by omega⟩
          have h2 : (y + 1 ≤ y + 1 + k ∧ y + 1 + k ≤ 31 ∧ sx ≤ c ∧ c < sx + 8 ∧ c ≤ 63) ↔
            (y ≤ y + 1 + k ∧ y + 1 + k ≤ 31 ∧ sx ≤ c ∧ c < sx + 8 ∧ c ≤ 63) := by omega
          simp only [hr, false_and, decide_false, Bool.false_and, Bool.false_xor, h2,
            show y + 1 + k - (y + 1) = k by omega, show y + 1 + k - y = k + 1 by omega, List.getElem?_cons_succ]
        · have h1 : ¬(y + 1 ≤ r ∧ r ≤ 31 ∧ sx ≤ c ∧ c < sx + 8 ∧ c ≤ 63) := by omega
          have h2 : ¬(y ≤ r ∧ r ≤ 31 ∧ sx ≤ c ∧ c < sx + 8 ∧ c ≤ 63) := by omega
          simp only [hr, false_and, decide_false, Bool.false_and, decide_eq_false h1, decide_eq_false h2, Bool.xor_false]

/-- A drawing hits when some lit sprite bit inside the screen meets a lit pixel of the frame before it. -/
theorem hit_drawRows (sx y : Nat) (bytes : List Byte) (d : Frame × Bool) :
    (drawRows sx y bytes d).2 = true ↔
      d.2 = true ∨ ∃ r c, spriteLit sx y bytes r c = true ∧ d.1.pixel r c = true := by
  induction bytes generalizing y d with
  | nil => simp [drawRows, spriteLit]
  | cons b bytes ih =>
    simp only [drawRows]
    split
    · refine ⟨.inl, fun h => h.elim id fun ⟨r, c, h1, _⟩ => ?_⟩
      simp only [spriteLit, Bool.and_eq_true, decide_eq_true_eq] at h1
      omega
    · rename_i h
      have hy : y < 32 := by omega
      rw [ih, List.range_eq_range', hit_drawCols b hy]
      have lit_succ (r c : Nat) : spriteLit sx (y + 1) bytes r c = true →
          spriteLit sx y (b :: bytes) r c = true ∧ r ≠ y := by
        simp only [spriteLit, Bool.and_eq_true, decide_eq_true_eq]
        rintro ⟨h1, h2⟩
        refine ⟨⟨by omega, ?_⟩, by omega⟩
        rwa [show r - y = (r - (y + 1)) + 1 by omega, List.getElem?_cons_succ]
      have lit_split (r c : Nat) : spriteLit sx y (b :: bytes) r c = true →
          (r = y ∧ sx ≤ c ∧ c < sx + 8 ∧ c ≤ 63 ∧ b.getLsbD (7 - (c - sx)) = true) ∨
            (r ≠ y ∧ spriteLit sx (y + 1) bytes r c = true) := by
        simp only [spriteLit, Bool.and_eq_true, decide_eq_true_eq]
        rintro ⟨h1, h2⟩
        by_cases hr : r = y
        · subst hr
          exact .inl ⟨rfl, by omega, by omega, by omega, by simpa using h2⟩
        · refine .inr ⟨hr, by omega, ?_⟩
          rwa [show r - y = (r - (y + 1)) + 1 by omega, List.getElem?_cons_succ] at h2
      have pixel_other (r c : Nat) (hr : r ≠ y) :
          (drawCols b y sx (List.range' 0 8) d).1.pixel r c = d.1.pixel r c := by
        rw [pixel_drawCols b hy]
        simp [hr]
      constructor
      · rintro ((h2 | ⟨c, h1, h2, h3, hb, hp⟩) | ⟨r, c, hl, hp⟩)
        · exact .inl h2
        · exact .inr ⟨y, c, by
            simp only [spriteLit, Bool.and_eq_true, decide_eq_true_eq]
            exact ⟨by omega, by simpa using hb⟩, hp⟩
        · have ⟨hl', hr⟩ := lit_succ r c hl
          exact .inr ⟨r, c, hl', by rwa [pixel_other r c hr] at hp⟩
      · rintro (h2 | ⟨r, c, hl, hp⟩)
        · exact .inl (.inl h2)
        · rcases lit_split r c hl with ⟨rfl, h1, h2, h3, hb⟩ | ⟨hr, hl'⟩
          · exact .inl (.inr ⟨c, by omega, by omega, h3, hb, hp⟩)
          · exact .inr ⟨r, c, hl', by rwa [pixel_other r c hr]⟩

/-- The sprite bits that the drawing of a state's sprite falls on the screen with. -/
theorem spriteLit_iff_drawsOn (s : State) (x y : Reg) (n : BitVec 4) (r c : Nat) :
    spriteLit (spriteCol s x) (spriteRow s y) (spriteBytes s n) r c = true ↔ s.drawsOn x y n r c := by
  simp only [spriteLit, Bool.and_eq_true, decide_eq_true_eq]
  simp only [State.drawsOn, spriteCol, spriteRow, spriteBytes, indexBase, List.getElem?_map]
  by_cases h : r - (s.getV y).toNat % 32 < n.toNat
  · simp only [List.getElem?_range h, Option.map_some, Option.getD_some]
    constructor
    · rintro ⟨h1, h2⟩
      exact ⟨by omega, by omega, by omega, by omega, by omega, by omega, h2⟩
    · rintro ⟨h1, h2, h3, h4, h5, h6, h7⟩
      exact ⟨by omega, h7⟩
  · rw [List.getElem?_eq_none (by simpa using h)]
    simp only [Option.map_none, Option.getD_none]
    constructor
    · rintro ⟨_, h2⟩
      simp at h2
    · rintro ⟨h1, h2, _⟩
      omega

end Sys2Proof.Machine
end

