-- ==== Sys2Proof/Laws/Ops.lean ====
section
/-! SUPPORT. One lemma per shared operation: the call stack, the keypad, the timers, the flags, the fetch, and what a step can
do. -/

namespace Sys2Proof.Machine

/-! ## Timers (spec/00_scope.md R8, spec/60_exceptions.md R225) -/

theorem timerPeriod_pos : 1 ≤ timerPeriod := by
  unfold timerPeriod Config.cycleRate
  omega

/-- A tick leaves the accumulator below the period. -/
theorem tickTimer_acc_lt {p : Nat} {t : Byte × Nat} (hp : 1 ≤ p) (h : t.2 < p) : (tickTimer p t).2 < p := by
  unfold tickTimer
  split
  · split
    · exact hp
    · show t.2 + 1 < p
      omega
  · exact h

theorem tickTimer_zero (p a : Nat) : tickTimer p (0, a) = (0, a) := rfl

/-! ## The call stack (spec/10_state.md R30, R31) -/

theorem State.push_ok (s : State) {c : Nat} (a : Word) (h : s.sp.val < c) (hc : c ≤ Config.stackSlots) :
    ∃ t, s.push c a = .ok t ∧ t = { s with stack := t.stack, sp := t.sp } ∧ t.sp.val = s.sp.val + 1 ∧
      t.slot s.sp.val = a ∧ ∀ k, k ≠ s.sp.val → t.slot k = s.slot k := by
  have h' : s.sp.val < Config.stackSlots := Nat.lt_of_lt_of_le h hc
  refine ⟨_, dif_pos ⟨h, h'⟩, rfl, rfl, ?_, fun k hk => ?_⟩
  · simp [State.slot]
  · simp [State.slot, Vector.getElem?_set_ne h' (Ne.symm hk)]

theorem State.push_full (s : State) {c : Nat} (a : Word) (h : c ≤ s.sp.val) :
    s.push c a = .error (.stackOverflow s.instrPc) := dif_neg fun h' => Nat.not_lt.2 h h'.1

/-- What CALL does: with room for the return address it pushes it and jumps, else it raises STACK_OVERFLOW. -/
theorem callWith_room {c : Nat} (nnn : BitVec 12) (s : State) (h : s.sp.val < c) (hc : c ≤ Config.stackSlots) :
    callWith c nnn s = { s with
      pc := addrOperand nnn, stack := (callWith c nnn s).stack, sp := (callWith c nnn s).sp } ∧
      (callWith c nnn s).sp.val = s.sp.val + 1 ∧ (callWith c nnn s).slot s.sp.val = s.pc ∧
      ∀ k, k ≠ s.sp.val → (callWith c nnn s).slot k = s.slot k := by
  obtain ⟨t, ht, he, hsp, hslot, hother⟩ := s.push_ok s.pc h hc
  have hcall : callWith c nnn s = t.setPc (addrOperand nnn) := by rw [callWith, ht]
  rw [hcall]
  exact ⟨by rw [he]; rfl, hsp, hslot, hother⟩

theorem callWith_full {c : Nat} (nnn : BitVec 12) (s : State) (h : c ≤ s.sp.val) :
    callWith c nnn s = s.raiseFatal (.stackOverflow s.instrPc) := by rw [callWith, s.push_full s.pc h]

theorem State.pop_ok (s : State) (h : s.sp.val ≠ 0) :
    ∃ t, s.pop = .ok (s.slot (s.sp.val - 1), t) ∧ t = { s with sp := t.sp } ∧ t.sp.val + 1 = s.sp.val := by
  refine ⟨{ s with sp := ⟨s.sp.val - 1, Nat.lt_of_le_of_lt (Nat.sub_le _ _) s.sp.isLt⟩ }, ?_, rfl, ?_⟩
  · have := s.sp.isLt
    have hk : s.sp.val - 1 < Config.stackSlots := by omega
    rw [State.pop, dif_neg h]
    simp [State.slot, hk]
  · show s.sp.val - 1 + 1 = s.sp.val
    omega

theorem State.pop_empty (s : State) (h : s.sp.val = 0) : s.pop = .error (.stackUnderflow s.instrPc) := dif_pos h

/-! ## Keypad (spec/10_state.md R35) -/

theorem State.lowestPressed_eq_some (s : State) (k : Nat) :
    s.lowestPressed = some k ↔ k < 16 ∧ s.keyPressed k = true ∧ ∀ j, j < k → s.keyPressed j = false := by
  unfold State.lowestPressed
  rw [List.find?_range_eq_some]
  simp only [List.mem_range, Bool.not_eq_true']
  constructor
  · rintro ⟨h1, h2, h3⟩
    exact ⟨h2, h1, h3⟩
  · rintro ⟨h1, h2, h3⟩
    exact ⟨h2, h1, h3⟩

theorem State.lowestPressed_eq_none (s : State) :
    s.lowestPressed = none ↔ ∀ k, k < 16 → s.keyPressed k = false := by
  simp [State.lowestPressed]

/-! ## Flags (spec/10_state.md R23, spec/41_alu.md R120) -/

theorem flagByte_eq_one {c : Bool} : flagByte c = 1 ↔ c = true := by cases c <;> decide

theorem flagByte_eq_zero {c : Bool} : flagByte c = 0 ↔ c = false := by cases c <;> decide

theorem carryFlag_eq (a b : Byte) : carryFlag a b = if 0xFF < a.toNat + b.toNat then 1 else 0 := by
  simp [carryFlag, flagByte]

theorem noBorrowFlag_eq (a b : Byte) : noBorrowFlag a b = if b.toNat ≤ a.toNat then 1 else 0 := by
  simp [noBorrowFlag, flagByte]

theorem indexFlag_eq (n : Nat) : indexFlag n = if 0xFFF < n then 1 else 0 := by
  simp [indexFlag, flagByte]

/-! ## What a step can do -/

/-- If a cycle answers a next state, the state had a further cycle, and after the tick either the fetch raised, or the word at
PC was executed: the instruction it decodes to, or nothing. The host exchange follows unless a fatal was raised. -/
theorem cycle_next {p : Nat} {ex : Execution} {s t : State} (h : cycle p ex s = .next t) :
    s.Running ∧
      ((∃ r, (s.tickTimersBy p).fetchWord = .error r ∧ t = (s.tickTimersBy p).raiseFatal r) ∨
        ∃ w u, (s.tickTimersBy p).fetchWord = .ok w ∧ execWord ex w (s.tickTimersBy p).advancePc = .next u ∧
          t = if u.fault.isSome then u else u.hostExchange) := by
  unfold cycle at h
  split at h
  · simp at h
  · rename_i hf
    split at h
    · simp at h
    · rename_i hr
      refine ⟨⟨hf, by simpa using hr⟩, ?_⟩
      unfold runInstruction at h
      split at h
      · rename_i w hw
        refine .inr ⟨w, ?_⟩
        unfold finishCycle at h
        split at h
        · rename_i u hu
          refine ⟨u, hw, hu, ?_⟩
          by_cases hs : u.fault.isSome = true
          · rw [if_pos hs] at h ⊢
            exact (Host.Outcome.next.inj h).symm
          · rw [if_neg hs] at h ⊢
            exact (Host.Outcome.next.inj h).symm
        · simp at h
        · simp at h
      · rename_i r hr
        exact .inl ⟨r, hr, by simpa using h.symm⟩

/-- What a step of this hardware can do. -/
theorem step_next {s t : State} (h : step s = .next t) :
    s.Running ∧
      ((∃ r, s.tickTimers.fetchWord = .error r ∧ t = s.tickTimers.raiseFatal r) ∨
        ∃ w u, s.tickTimers.fetchWord = .ok w ∧ execWord exec w s.tickTimers.advancePc = .next u ∧
          t = if u.fault.isSome then u else u.hostExchange) := cycle_next h

/-- At the parameters of this hardware every instruction has the meaning that `exec` gives it. -/
theorem execWith_hardware (i : Instr) (s : State) : execWith hardware i s = exec i s := by cases i <;> rfl

/-- A fetch inside memory. -/
theorem State.fetchWord_ok {s : State} (h : s.pc.toNat ≤ 0xFFE) :
    s.fetchWord = .ok (wordOfBytes (s.memRead s.pc.toNat) (s.memRead (s.pc.toNat + 1))) :=
  if_neg (Nat.not_lt.2 h)

/-- A fetch past the end of memory. -/
theorem State.fetchWord_error {s : State} (h : 0xFFE < s.pc.toNat) : s.fetchWord = .error (.fetchRange s.pc) := if_pos h

end Sys2Proof.Machine
end

