-- ==== Sys2Proof/Laws/PerInstr.lean ====
section
/-! SUPPORT. A statement per instruction: its encoded word matches the row of the opcode map that bears its mnemonic
(spec/30_encoding.md R75). -/

namespace Sys2Proof.Laws.OwnRow

/-- The mnemonic of an instruction in spec/opcode_table.json. -/
def mnemonic : Instr → String
  | .cls => "CLS"
  | .ret => "RET"
  | .jp _ => "JP"
  | .call _ => "CALL"
  | .seVxNn _ _ => "SE_VX_NN"
  | .sneVxNn _ _ => "SNE_VX_NN"
  | .seVxVy _ _ => "SE_VX_VY"
  | .ldVxNn _ _ => "LD_VX_NN"
  | .addVxNn _ _ => "ADD_VX_NN"
  | .ldVxVy _ _ => "LD_VX_VY"
  | .or _ _ => "OR"
  | .and _ _ => "AND"
  | .xor _ _ => "XOR"
  | .addVxVy _ _ => "ADD_VX_VY"
  | .sub _ _ => "SUB"
  | .shr _ _ => "SHR"
  | .subn _ _ => "SUBN"
  | .shl _ _ => "SHL"
  | .sneVxVy _ _ => "SNE_VX_VY"
  | .ldINnn _ => "LD_I_NNN"
  | .jpV0Nnn _ => "JP_V0_NNN"
  | .rnd _ _ => "RND"
  | .drw _ _ _ => "DRW"
  | .skp _ => "SKP"
  | .sknp _ => "SKNP"
  | .ldVxDt _ => "LD_VX_DT"
  | .ldVxK _ => "LD_VX_K"
  | .ldDtVx _ => "LD_DT_VX"
  | .ldStVx _ => "LD_ST_VX"
  | .addIVx _ => "ADD_I_VX"
  | .ldFVx _ => "LD_F_VX"
  | .ldBVx _ => "LD_B_VX"
  | .ldMemVx _ => "LD_MEM_VX"
  | .ldVxMem _ => "LD_VX_MEM"

/-- The instruction's word matches the row of its mnemonic. -/
def Statement (i : Instr) : Prop := ∃ r ∈ opcodeTable, r.mnemonic = mnemonic i ∧ r.Matches (encode i)

theorem cls : Statement .cls :=
  ⟨opcodeTable[0], List.getElem_mem _, rfl, by decide⟩

theorem ret : Statement .ret :=
  ⟨opcodeTable[1], List.getElem_mem _, rfl, by decide⟩

theorem jp (nnn : BitVec 12) : Statement (.jp nnn) :=
  ⟨opcodeTable[2], List.getElem_mem _, rfl, encodeNNN_mask 0x1 nnn⟩

theorem call (nnn : BitVec 12) : Statement (.call nnn) :=
  ⟨opcodeTable[3], List.getElem_mem _, rfl, encodeNNN_mask 0x2 nnn⟩

theorem seVxNn (x : Reg) (nn : Byte) : Statement (.seVxNn x nn) :=
  ⟨opcodeTable[4], List.getElem_mem _, rfl, encodeXNN_mask 0x3 x nn⟩

theorem sneVxNn (x : Reg) (nn : Byte) : Statement (.sneVxNn x nn) :=
  ⟨opcodeTable[5], List.getElem_mem _, rfl, encodeXNN_mask 0x4 x nn⟩

theorem seVxVy (x y : Reg) : Statement (.seVxVy x y) :=
  ⟨opcodeTable[6], List.getElem_mem _, rfl, encodeXYN_maskXY 0x5 x y 0x0⟩

theorem ldVxNn (x : Reg) (nn : Byte) : Statement (.ldVxNn x nn) :=
  ⟨opcodeTable[7], List.getElem_mem _, rfl, encodeXNN_mask 0x6 x nn⟩

theorem addVxNn (x : Reg) (nn : Byte) : Statement (.addVxNn x nn) :=
  ⟨opcodeTable[8], List.getElem_mem _, rfl, encodeXNN_mask 0x7 x nn⟩

theorem ldVxVy (x y : Reg) : Statement (.ldVxVy x y) :=
  ⟨opcodeTable[9], List.getElem_mem _, rfl, encodeXYN_maskXY 0x8 x y 0x0⟩

theorem or (x y : Reg) : Statement (.or x y) :=
  ⟨opcodeTable[10], List.getElem_mem _, rfl, encodeXYN_maskXY 0x8 x y 0x1⟩

theorem and (x y : Reg) : Statement (.and x y) :=
  ⟨opcodeTable[11], List.getElem_mem _, rfl, encodeXYN_maskXY 0x8 x y 0x2⟩

theorem xor (x y : Reg) : Statement (.xor x y) :=
  ⟨opcodeTable[12], List.getElem_mem _, rfl, encodeXYN_maskXY 0x8 x y 0x3⟩

theorem addVxVy (x y : Reg) : Statement (.addVxVy x y) :=
  ⟨opcodeTable[13], List.getElem_mem _, rfl, encodeXYN_maskXY 0x8 x y 0x4⟩

theorem sub (x y : Reg) : Statement (.sub x y) :=
  ⟨opcodeTable[14], List.getElem_mem _, rfl, encodeXYN_maskXY 0x8 x y 0x5⟩

theorem shr (x y : Reg) : Statement (.shr x y) :=
  ⟨opcodeTable[15], List.getElem_mem _, rfl, encodeXYN_maskXY 0x8 x y 0x6⟩

theorem subn (x y : Reg) : Statement (.subn x y) :=
  ⟨opcodeTable[16], List.getElem_mem _, rfl, encodeXYN_maskXY 0x8 x y 0x7⟩

theorem shl (x y : Reg) : Statement (.shl x y) :=
  ⟨opcodeTable[17], List.getElem_mem _, rfl, encodeXYN_maskXY 0x8 x y 0xE⟩

theorem sneVxVy (x y : Reg) : Statement (.sneVxVy x y) :=
  ⟨opcodeTable[18], List.getElem_mem _, rfl, encodeXYN_maskXY 0x9 x y 0x0⟩

theorem ldINnn (nnn : BitVec 12) : Statement (.ldINnn nnn) :=
  ⟨opcodeTable[19], List.getElem_mem _, rfl, encodeNNN_mask 0xA nnn⟩

theorem jpV0Nnn (nnn : BitVec 12) : Statement (.jpV0Nnn nnn) :=
  ⟨opcodeTable[20], List.getElem_mem _, rfl, encodeNNN_mask 0xB nnn⟩

theorem rnd (x : Reg) (nn : Byte) : Statement (.rnd x nn) :=
  ⟨opcodeTable[21], List.getElem_mem _, rfl, encodeXNN_mask 0xC x nn⟩

theorem drw (x y : Reg) (n : BitVec 4) : Statement (.drw x y n) :=
  ⟨opcodeTable[22], List.getElem_mem _, rfl, encodeXYN_mask 0xD x y n⟩

theorem skp (x : Reg) : Statement (.skp x) :=
  ⟨opcodeTable[23], List.getElem_mem _, rfl, encodeXNN_maskX 0xE x 0x9E⟩

theorem sknp (x : Reg) : Statement (.sknp x) :=
  ⟨opcodeTable[24], List.getElem_mem _, rfl, encodeXNN_maskX 0xE x 0xA1⟩

theorem ldVxDt (x : Reg) : Statement (.ldVxDt x) :=
  ⟨opcodeTable[25], List.getElem_mem _, rfl, encodeXNN_maskX 0xF x 0x07⟩

theorem ldVxK (x : Reg) : Statement (.ldVxK x) :=
  ⟨opcodeTable[26], List.getElem_mem _, rfl, encodeXNN_maskX 0xF x 0x0A⟩

theorem ldDtVx (x : Reg) : Statement (.ldDtVx x) :=
  ⟨opcodeTable[27], List.getElem_mem _, rfl, encodeXNN_maskX 0xF x 0x15⟩

theorem ldStVx (x : Reg) : Statement (.ldStVx x) :=
  ⟨opcodeTable[28], List.getElem_mem _, rfl, encodeXNN_maskX 0xF x 0x18⟩

theorem addIVx (x : Reg) : Statement (.addIVx x) :=
  ⟨opcodeTable[29], List.getElem_mem _, rfl, encodeXNN_maskX 0xF x 0x1E⟩

theorem ldFVx (x : Reg) : Statement (.ldFVx x) :=
  ⟨opcodeTable[30], List.getElem_mem _, rfl, encodeXNN_maskX 0xF x 0x29⟩

theorem ldBVx (x : Reg) : Statement (.ldBVx x) :=
  ⟨opcodeTable[31], List.getElem_mem _, rfl, encodeXNN_maskX 0xF x 0x33⟩

theorem ldMemVx (x : Reg) : Statement (.ldMemVx x) :=
  ⟨opcodeTable[32], List.getElem_mem _, rfl, encodeXNN_maskX 0xF x 0x55⟩

theorem ldVxMem (x : Reg) : Statement (.ldVxMem x) :=
  ⟨opcodeTable[33], List.getElem_mem _, rfl, encodeXNN_maskX 0xF x 0x65⟩

end Sys2Proof.Laws.OwnRow
end

