-- ==== Sys2Proof/Tests/Slice0.lean ====
section
/-! SUPPORT. Tests of the model against spec/95_test_vectors.md and the examples of the instruction rules, and a witness for
the hypotheses of each statement. In a test of one instruction the state is the one after the fetch advance. -/

namespace Sys2Proof.Tests

open Sys2Proof.Machine

/-! ## Helpers -/

/-- The state an outcome holds. -/
def result (o : Host.Outcome State Fault Refusal) : Option State :=
  match o with
  | .next s => some s
  | .fault _ => none
  | .refused _ => none

/-- A state after construction, with PC past an instruction at 0x200 and some registers set. -/
def withRegs (rs : List (Reg × Byte)) : State := rs.foldl (fun s r => s.setV r.1 r.2) (State.reset.setPc 0x202)

/-- The same with VF at 0x55, as in L2.3. -/
def withRegs55 (rs : List (Reg × Byte)) : State := withRegs ((VF, 0x55) :: rs)

/-- Run one instruction and look at the state after it. -/
def look {α : Type} (i : Instr) (s : State) (f : State → α) : Option α := (result (exec i s)).map f

/-- The bytes listed stored from an address up. -/
def withBytes (s : State) (a : Nat) (bs : List Byte) : State := s.copyBytes a bs

/-- The host turns `k` cycles ahead: no key, no quit. -/
def quietHost (k : Nat) : List HostTurn := List.replicate k ⟨0, false⟩

/-- A launch with a ROM and a quiet host (spec/95_test_vectors.md, conventions). -/
def launched (rom : Rom) (k : Nat) : State :=
  ((result (State.reset.loadRom rom)).getD State.reset) |> fun s => { s with hostTurns := quietHost k }

/-- The lit pixels of a frame's row. -/
def litCols (f : Frame) (r : Nat) : List Nat := (List.range 64).filter fun c => f.pixel r c

/-! ## Well-formedness: an ill-formed term for each check -/

/-- R257: a ROM of 3585 bytes is one byte too long, one of 3584 fits. -/
theorem test_rom_too_long :
    Rom.wellFormed (List.replicate 3585 0) = false ∧ Rom.wellFormed (List.replicate 3584 0) = true := by
  constructor <;> rw [Rom.wellFormed, List.length_replicate] <;> decide

/-- R8: a rate of 59 gives period 0, a rate of 60 period 1. -/
theorem test_cycle_rate_too_low : cycleRateWellFormed 59 = false ∧ cycleRateWellFormed 60 = true := by decide

/-! ## Decoding: a word per constructor, written out from the encoding (R72, R75) -/

theorem test_decode_families_0_to_3 :
    decodeWord 0b0000000011100000 = some .cls ∧ decodeWord 0b0000000011101110 = some .ret ∧
    decodeWord 0b0001001000110100 = some (.jp 0x234) ∧ decodeWord 0b0010101111001101 = some (.call 0xBCD) ∧
    decodeWord 0b0011000100101000 = some (.seVxNn 1 0x28) := by decide

theorem test_decode_families_4_to_7 :
    decodeWord 0b0100111100000001 = some (.sneVxNn 15 0x01) ∧ decodeWord 0b0101101011000000 = some (.seVxVy 10 12) ∧
    decodeWord 0b0110101000111100 = some (.ldVxNn 10 0x3C) ∧ decodeWord 0b0111001000000001 = some (.addVxNn 2 0x01) := by
  decide

theorem test_decode_family_8 :
    decodeWord 0b1000000100100000 = some (.ldVxVy 1 2) ∧ decodeWord 0b1000001000110001 = some (.or 2 3) ∧
    decodeWord 0b1000001101000010 = some (.and 3 4) ∧ decodeWord 0b1000010001010011 = some (.xor 4 5) ∧
    decodeWord 0b1000010101100100 = some (.addVxVy 5 6) ∧ decodeWord 0b1000011001110101 = some (.sub 6 7) ∧
    decodeWord 0b1000011110000110 = some (.shr 7 8) ∧ decodeWord 0b1000100010010111 = some (.subn 8 9) ∧
    decodeWord 0b1000100110101110 = some (.shl 9 10) := by decide

theorem test_decode_families_9_to_D :
    decodeWord 0b1001000100100000 = some (.sneVxVy 1 2) ∧ decodeWord 0b1010000001010000 = some (.ldINnn 0x050) ∧
    decodeWord 0b1011111100000001 = some (.jpV0Nnn 0xF01) ∧ decodeWord 0b1100010100001111 = some (.rnd 5 0x0F) ∧
    decodeWord 0b1101000000010101 = some (.drw 0 1 5) := by decide

theorem test_decode_families_E_and_F :
    decodeWord 0b1110010010011110 = some (.skp 4) ∧ decodeWord 0b1110010010100001 = some (.sknp 4) ∧
    decodeWord 0b1111001100000111 = some (.ldVxDt 3) ∧ decodeWord 0b1111001000001010 = some (.ldVxK 2) ∧
    decodeWord 0b1111000000010101 = some (.ldDtVx 0) ∧ decodeWord 0b1111000100011000 = some (.ldStVx 1) ∧
    decodeWord 0b1111001000011110 = some (.addIVx 2) ∧ decodeWord 0b1111011100101001 = some (.ldFVx 7) ∧
    decodeWord 0b1111000000110011 = some (.ldBVx 0) ∧ decodeWord 0b1111001001010101 = some (.ldMemVx 2) ∧
    decodeWord 0b1111001001100101 = some (.ldVxMem 2) := by decide

/-- L2.1.6 to L2.1.14: unrecognised words, refused by name. -/
theorem test_decode_unrecognised :
    [0x0000, 0x0123, 0x00E1, 0x5121, 0x9121, 0x8018, 0xE19F, 0xF000, 0xFFFF].map decodeWord = List.replicate 9 none := by
  decide

theorem test_decode_bytes_by_name :
    decodeBytes [0x12, 0x34, 0x56] = .ok (.jp 0x234, [0x56]) ∧ decodeBytes [0x51, 0x21] = .error (.unrecognised 0x5121) ∧
    decodeBytes [0x12] = .error .tooShort := ⟨rfl, rfl, rfl⟩

theorem test_decode_table_word : decodeTableWord 16 0x8014 = some (.addVxVy 0 1) ∧ decodeTableWord 16 0x00EE = some .ret := by
  decide

/-- The bytes of the ROM of P3. -/
theorem test_encode_bytes : encodeBytes (.addVxVy 0 1) = [0x80, 0x14] ∧ encodeBytes (.shl 3 4) = [0x83, 0x4E] := by decide

/-! ## Control flow (L2.2) -/

/-- L2.2.1. -/
theorem test_jp : look (.jp 0x208) (withRegs []) State.pc = some 0x208 := by decide

/-- L2.2.3, L2.2.4. -/
theorem test_call :
    look (.call 0x300) (withRegs []) (fun t => (t.slot 0, t.sp.val, t.pc)) = some (0x202, 1, 0x300) ∧
    look (.call 0x300) { withRegs [] with sp := 15 } (fun t => (t.slot 15, t.sp.val, t.pc)) = some (0x202, 16, 0x300) := by
  decide

/-- L2.2.5. -/
theorem test_call_full :
    look (.call 0x300) { withRegs [] with sp := 16 } (fun t => (t.fault, t.sp.val, t.pc)) =
      some (some (.stackOverflow 0x200), 16, 0x202) := by decide

/-- L2.2.6, L2.2.7. -/
theorem test_ret :
    look .ret { State.reset.setPc 0x302 with sp := 1, stack := State.reset.stack.set 0 0x202 }
      (fun t => (t.pc, t.sp.val, t.fault)) = some (0x202, 0, none) ∧
    look .ret (State.reset.setPc 0x302) State.fault = some (some (.stackUnderflow 0x300)) := by decide

/-- L2.2.8, L2.2.9, L2.2.17. -/
theorem test_se_vx_nn :
    look (.seVxNn 3 0x05) (withRegs [(3, 0x05)]) State.pc = some 0x204 ∧
    look (.seVxNn 3 0x05) (withRegs [(3, 0x04)]) State.pc = some 0x202 ∧
    look (.seVxNn VF 0x01) (withRegs [(VF, 0x01)]) State.pc = some 0x204 := by decide

/-- L2.2.10, L2.2.11. -/
theorem test_sne_vx_nn :
    look (.sneVxNn 3 0x05) (withRegs [(3, 0x05)]) State.pc = some 0x202 ∧
    look (.sneVxNn 3 0x05) (withRegs [(3, 0x04)]) State.pc = some 0x204 := by decide

/-- L2.2.12 to L2.2.14. -/
theorem test_se_vx_vy :
    look (.seVxVy 1 2) (withRegs [(1, 0x7F), (2, 0x7F)]) State.pc = some 0x204 ∧
    look (.seVxVy 1 2) (withRegs [(1, 0x7F), (2, 0x7E)]) State.pc = some 0x202 ∧
    look (.seVxVy 1 1) (withRegs [(1, 0x7F)]) State.pc = some 0x204 := by decide

/-- L2.2.15, L2.2.16. -/
theorem test_sne_vx_vy :
    look (.sneVxVy 1 2) (withRegs [(1, 0x01), (2, 0x02)]) State.pc = some 0x204 ∧
    look (.sneVxVy 1 1) (withRegs [(1, 0x01)]) State.pc = some 0x202 := by decide

/-- L2.2.19, L2.2.20. -/
theorem test_jp_v0 :
    look (.jpV0Nnn 0x300) (withRegs [(0, 0x04), (3, 0x99)]) State.pc = some 0x304 ∧
    look (.jpV0Nnn 0xF01) (withRegs [(0, 0xFF)]) State.pc = some 0x1000 := by decide

/-! ## Register, arithmetic and logic (L2.3) -/

/-- L2.3.1. -/
theorem test_ld_vx_nn : look (.ldVxNn 10 0x3C) (withRegs55 []) (fun t => (t.getV 10, t.getV VF)) = some (0x3C, 0x55) := by
  decide

/-- L2.3.2, L2.3.35. -/
theorem test_add_vx_nn :
    look (.addVxNn 0 0x01) (withRegs55 [(0, 0xFF)]) (fun t => (t.getV 0, t.getV VF)) = some (0x00, 0x55) ∧
    look (.addVxNn VF 0x01) (withRegs [(VF, 0xFF)]) (fun t => t.getV VF) = some 0x00 := by decide

/-- L2.3.4. -/
theorem test_ld_vx_vy :
    look (.ldVxVy 0 1) (withRegs55 [(1, 0x42)]) (fun t => (t.getV 0, t.getV VF)) = some (0x42, 0x55) := by decide

/-- L2.3.5, L2.3.36. -/
theorem test_or :
    look (.or 0 1) (withRegs55 [(0, 0x0F), (1, 0xF0)]) (fun t => (t.getV 0, t.getV VF)) = some (0xFF, 0x55) ∧
    look (.or VF 1) (withRegs [(VF, 0x0F), (1, 0xF0)]) (fun t => t.getV VF) = some 0xFF := by decide

/-- L2.3.6. -/
theorem test_and :
    look (.and 0 1) (withRegs55 [(0, 0x3C), (1, 0x0F)]) (fun t => (t.getV 0, t.getV VF)) = some (0x0C, 0x55) := by decide

/-- L2.3.7, L2.3.8. -/
theorem test_xor :
    look (.xor 0 1) (withRegs55 [(0, 0xFF), (1, 0x0F)]) (fun t => (t.getV 0, t.getV VF)) = some (0xF0, 0x55) ∧
    look (.xor 0 0) (withRegs55 [(0, 0xA5)]) (fun t => (t.getV 0, t.getV VF)) = some (0x00, 0x55) := by decide

/-- L2.3.9, L2.3.10. -/
theorem test_add :
    look (.addVxVy 0 1) (withRegs55 [(0, 0x80), (1, 0x80)]) (fun t => (t.getV 0, t.getV VF)) = some (0x00, 1) ∧
    look (.addVxVy 0 1) (withRegs55 [(0, 0x7F), (1, 0x80)]) (fun t => (t.getV 0, t.getV VF)) = some (0xFF, 0) := by decide

/-- L2.3.27, L2.3.28. -/
theorem test_add_into_vf :
    look (.addVxVy VF 1) (withRegs [(VF, 0x80), (1, 0x90)]) (fun t => t.getV VF) = some 1 ∧
    look (.addVxVy VF 1) (withRegs [(VF, 0x10), (1, 0x20)]) (fun t => t.getV VF) = some 0 := by decide

/-- L2.3.12, L2.3.13, L2.3.30. -/
theorem test_sub :
    look (.sub 0 1) (withRegs55 [(0, 0x07), (1, 0x07)]) (fun t => (t.getV 0, t.getV VF)) = some (0x00, 1) ∧
    look (.sub 0 1) (withRegs55 [(0, 0x00), (1, 0x01)]) (fun t => (t.getV 0, t.getV VF)) = some (0xFF, 0) ∧
    look (.sub VF 1) (withRegs [(VF, 0x03), (1, 0x05)]) (fun t => t.getV VF) = some 0 := by decide

/-- L2.3.29: the old VF is read as V[y]. -/
theorem test_sub_vf_source :
    look (.sub 0 VF) (withRegs [(0, 0x05), (VF, 0x03)]) (fun t => (t.getV 0, t.getV VF)) = some (0x02, 1) := by decide

/-- L2.3.14 to L2.3.16. -/
theorem test_subn :
    look (.subn 0 1) (withRegs55 [(0, 0x02), (1, 0x01)]) (fun t => (t.getV 0, t.getV VF)) = some (0xFF, 0) ∧
    look (.subn 0 1) (withRegs55 [(0, 0x01), (1, 0x02)]) (fun t => (t.getV 0, t.getV VF)) = some (0x01, 1) ∧
    look (.subn 0 1) (withRegs55 [(0, 0x05), (1, 0x05)]) (fun t => (t.getV 0, t.getV VF)) = some (0x00, 1) := by decide

/-- L2.3.17, L2.3.31. -/
theorem test_shr :
    look (.shr 0 1) (withRegs55 [(0, 0x05), (1, 0xAA)]) (fun t => (t.getV 0, t.getV VF)) = some (0x02, 1) ∧
    look (.shr VF 0) (withRegs [(VF, 0x02)]) (fun t => t.getV VF) = some 0x01 := by decide

/-- L2.3.23, L2.3.32: the other reading and the other order. -/
theorem test_shr_parameters :
    (shiftRight .copyVy .flagThenResult 0 1 (withRegs55 [(0, 0xFF), (1, 0x04)])).getV 0 = 0x02 ∧
    (shiftRight .inPlace .resultThenFlag VF 0 (withRegs [(VF, 0x02)])).getV VF = 0x00 := by decide

/-- L2.3.20, L2.3.33. -/
theorem test_shl :
    look (.shl 0 1) (withRegs55 [(0, 0xFE)]) (fun t => (t.getV 0, t.getV VF)) = some (0xFC, 1) ∧
    look (.shl VF 0) (withRegs [(VF, 0x81)]) (fun t => t.getV VF) = some 0x02 := by decide

/-- L2.3.24, L2.3.34. -/
theorem test_shl_parameters :
    (shiftLeft .copyVy .flagThenResult 0 1 (withRegs55 [(0, 0x01), (1, 0x81)])).getV 0 = 0x02 ∧
    (shiftLeft .inPlace .resultThenFlag VF 0 (withRegs [(VF, 0x81)])).getV VF = 0x01 := by decide

/-- L2.3.25, with the draw listed. -/
theorem test_rnd :
    look (.rnd 5 0x0F) { withRegs55 [] with rndBytes := [0xA7, 0x12] } (fun t => (t.getV 5, t.getV VF, t.rndBytes)) =
      some (0x07, 0x55, [0x12]) := by decide

/-- L2.3.26: any draw, a free one here. -/
theorem test_rnd_free_masked_to_zero (s : State) : look (.rnd 5 0x00) s (fun t => t.getV 5) = some 0x00 := by
  simp [look, result, exec, execRnd]

/-! ## Index register and memory (L2.4) -/

/-- L2.4.1, L2.4.2. -/
theorem test_ld_i : look (.ldINnn 0x050) (withRegs []) State.i = some 0x050 ∧
    look (.ldINnn 0xFFF) (withRegs []) State.i = some 0xFFF := by decide

/-- L2.4.4, L2.4.5, L2.4.6. -/
theorem test_add_i :
    look (.addIVx 2) ((withRegs55 [(2, 0x01)]).setI 0xFFF) (fun t => (t.i, t.getV VF)) = some (0x1000, 1) ∧
    look (.addIVx 2) ((withRegs55 [(2, 0xFF)]).setI 0xF00) (fun t => (t.i, t.getV VF)) = some (0xFFF, 0) ∧
    look (.addIVx 2) ((withRegs55 [(2, 0x06)]).setI 0xFFFF) (fun t => (t.i, t.getV VF)) = some (0x0005, 1) := by decide

/-- L2.4.8: the old VF is added. -/
theorem test_add_i_vf :
    look (.addIVx VF) ((withRegs [(VF, 0x20)]).setI 0x100) (fun t => (t.i, t.getV VF)) = some (0x120, 0) := by decide

/-- L2.4.9 to L2.4.11. -/
theorem test_ld_f :
    [0x0A, 0x10, 0xFF].map (fun b => look (.ldFVx 7) (withRegs [(7, b)]) State.i) = [some 0x082, some 0x0A0, some 0x54B] := by
  decide

/-- L1.10: the glyph of digit 3. -/
theorem test_font : [0x05F, 0x060, 0x061, 0x062, 0x063].map State.reset.memRead = [0xF0, 0x10, 0xF0, 0x10, 0xF0] := by decide

/-- L2.4.12. -/
theorem test_bcd :
    look (.ldBVx 0) ((withRegs [(0, 0xFE)]).setI 0x400)
      (fun t => ([0x400, 0x401, 0x402].map t.memRead, t.i)) = some ([0x02, 0x05, 0x04], 0x400) := by decide

/-- L2.4.16, L2.4.17. -/
theorem test_bcd_top :
    look (.ldBVx 0) ((withRegs [(0, 0xFF)]).setI 0xFFD)
      (fun t => ([0xFFD, 0xFFE, 0xFFF].map t.memRead, t.fault)) = some ([0x02, 0x05, 0x05], none) ∧
    look (.ldBVx 0) ((withRegs [(0, 0xFF)]).setI 0xFFE) State.fault = some (some (.memRange 0x200 0x1000)) := by decide

/-- L2.4.18, with a byte at 0x303 that stays. -/
theorem test_store_registers :
    look (.ldMemVx 2) ((withBytes (withRegs [(0, 0x11), (1, 0x22), (2, 0x33)]) 0x303 [0x77]).setI 0x300)
      (fun t => ([0x300, 0x301, 0x302, 0x303].map t.memRead, t.i)) = some ([0x11, 0x22, 0x33, 0x77], 0x300) := by decide

/-- L2.4.20. -/
theorem test_store_registers_fault :
    look (.ldMemVx 3) ((withRegs []).setI 0xFFD) State.fault = some (some (.memRange 0x200 0x1000)) := by decide

/-- L2.4.22. -/
theorem test_load_registers :
    look (.ldVxMem 2) ((withBytes (withRegs [(3, 0x99)]) 0x400 [0x02, 0x05, 0x04]).setI 0x400)
      (fun t => ([0, 1, 2, 3].map t.getV, t.i)) = some ([0x02, 0x05, 0x04, 0x99], 0x400) := by decide

/-- L2.4.24. -/
theorem test_load_registers_fault :
    look (.ldVxMem 1) ((withRegs []).setI 0x1000) State.fault = some (some (.memRange 0x200 0x1000)) := by decide

/-- Storing the font's own byte over the font leaves memory in its canonical form: nothing listed. -/
theorem test_store_canonical :
    (State.reset.memWrite 0x050 0x12).mem = [(0x050, 0x12)] ∧ ((State.reset.memWrite 0x050 0x12).memWrite 0x050 0xF0).mem = [] := by
  decide

/-! ## Display (L2.5) -/

/-- L2.5.11. -/
theorem test_cls :
    look .cls ((withRegs55 []).setFb (Vector.replicate 32 1)) (fun t => (t.fb, t.getV VF)) =
      some (Vector.replicate 32 0, 0x55) := by decide

/-- L2.5.1: clipped at the right edge. -/
theorem test_drw_clips_right :
    look (.drw 0 1 1) ((withBytes (withRegs [(0, 60)]) 0x300 [0xFF]).setI 0x300)
      (fun t => (litCols t.fb 0, litCols t.fb 1, t.getV VF)) = some ([60, 61, 62, 63], [], 0) := by decide

/-- L2.5.2: clipped at the bottom edge. -/
theorem test_drw_clips_bottom :
    look (.drw 0 1 5) ((withBytes (withRegs [(1, 30)]) 0x300 [0x80, 0x80, 0x80, 0x80, 0x80]).setI 0x300)
      (fun t => (litCols t.fb 30, litCols t.fb 31, litCols t.fb 0)) = some ([0], [0], []) := by decide

/-- L2.5.3, L2.5.7: the origin wraps, and is read before VF is zeroed. -/
theorem test_drw_origin :
    look (.drw 0 1 1) ((withBytes (withRegs [(0, 70), (1, 40)]) 0x300 [0xC0]).setI 0x300)
      (fun t => litCols t.fb 8) = some [6, 7] ∧
    look (.drw VF 1 1) ((withRegs [(VF, 3)]).setI 0x050) (fun t => (litCols t.fb 0, t.getV VF)) = some ([3, 4, 5, 6], 0) := by
  decide

/-- L2.5.8: the second drawing collides. -/
theorem test_drw_collides :
    look (.drw 0 1 1) (((withBytes (withRegs []) 0x301 [0x3C]).setI 0x301).setFb (State.reset.fb.set 0 0xF))
      (fun t => (litCols t.fb 0, t.getV VF)) = some ([0, 1, 4, 5], 1) := by decide

/-- L2.5.4, L2.5.5. -/
theorem test_drw_no_rows_and_fault :
    look (.drw 0 1 0) (withRegs [(VF, 1)]) (fun t => (t.fb, t.getV VF)) = some (State.reset.fb, 0) ∧
    look (.drw 0 1 3) ((withRegs [(VF, 7)]).setI 0xFFE) (fun t => (t.fault, t.getV VF, t.fb)) =
      some (some (.memRange 0x200 0x1000), 7, State.reset.fb) := by decide

/-! ## Keypad and timers (L2.6) -/

/-- L2.6.1, L2.6.2, L2.6.5. -/
theorem test_skp :
    look (.skp 4) { withRegs [(4, 5)] with key := 0x0020 } State.pc = some 0x204 ∧
    look (.skp 4) (withRegs [(4, 5)]) State.pc = some 0x202 ∧
    look (.skp 4) (withRegs [(4, 0x10)]) State.fault = some (some (.keyRange 0x200 0x10)) := by decide

/-- L2.6.3, L2.6.4, L2.6.6. -/
theorem test_sknp :
    look (.sknp 4) (withRegs [(4, 5)]) State.pc = some 0x204 ∧
    look (.sknp 4) { withRegs [(4, 5)] with key := 0x0020 } State.pc = some 0x202 ∧
    look (.sknp 4) (withRegs [(4, 0xFF)]) State.fault = some (some (.keyRange 0x200 0xFF)) := by decide

/-- L2.6.7, L2.6.8. -/
theorem test_ld_k :
    look (.ldVxK 2) { withRegs [] with key := 0x0208 } (fun t => (t.getV 2, t.pc)) = some (0x03, 0x202) ∧
    look (.ldVxK 2) (withRegs [(2, 0x44)]) (fun t => (t.getV 2, t.pc)) = some (0x44, 0x200) := by decide

/-- L2.6.10. -/
theorem test_ld_vx_dt : look (.ldVxDt 3) { withRegs [] with dt := 0x3C } (fun t => t.getV 3) = some 0x3C := by decide

/-- L2.6.11. -/
theorem test_ld_dt :
    look (.ldDtVx 0) { withRegs [(0, 0x05)] with dtAcc := 7 } (fun t => (t.dt, t.dtAcc)) = some (5, 7) := by decide

/-- L2.6.13. -/
theorem test_ld_st :
    look (.ldStVx 1) { withRegs [] with st := 3, stAcc := 2 } (fun t => (t.st, t.stAcc)) = some (0, 2) := by decide

/-- L2.6.14 to L2.6.19, TIMER_PERIOD = 10. -/
theorem test_tick :
    [((0 : Byte), 0), (0, 4), (5, 0), (5, 9), (1, 9), (255, 9)].map (tickTimer 10) =
      [(0, 0), (0, 4), (5, 1), (4, 0), (0, 0), (254, 0)] := by decide

/-! ## The cycle (L2.1, L2.7) -/

/-- L2.1.1, L2.1.9 as whole steps. -/
theorem test_step_fetch :
    (result (step (State.reset.withFetchWord 16 0x1234))).map State.pc = some 0x234 ∧
    (result (step (State.reset.withFetchWord 16 0x5121))).map State.pc = some 0x202 := by decide

/-- L2.1.3, L2.1.4. -/
theorem test_step_fetch_top :
    (result (step ((State.reset.setPc 0xFFE).withFetchWord 16 0x6007))).map (fun t => (t.getV 0, t.pc)) =
      some (0x07, 0x1000) ∧
    (result (step (State.reset.setPc 0xFFF))).map (fun t => (t.fault, t.pc)) = some (some (.fetchRange 0xFFF), 0xFFF) := by
  decide

/-- L2.7.1, L2.7.2: the keys and the quit answer of a cycle take effect after its instruction. -/
theorem test_step_host :
    (result (step { State.reset.withFetchWord 16 0xE09E with hostTurns := [⟨0x0001, true⟩] })).map
      (fun t => (t.pc, t.key, t.runEnded, t.hostTurns)) = some (0x202, 0x0001, true, []) := by decide

/-- L2.7.3: a fault ends the cycle, and there is no next one. -/
theorem test_step_fault :
    (result (step { State.reset.withFetchWord 16 0x00EE with hostTurns := [⟨0x0001, true⟩] })).map
      (fun t => (t.fault, t.key, t.runEnded, result (step t))) = some (some (.stackUnderflow 0x200), 0, false, none) := by
  decide

/-- L2.6.12: the beep level is that after FX18. -/
theorem test_step_beep :
    (result (step { (State.reset.setV 1 0x05).withFetchWord 16 0xF118 with hostTurns := quietHost 1 })).map
      (fun t => (t.st, t.beepOut)) = some (5, true) := by decide

/-- L1.12 as one step of DXYN: the glyph of digit 0 at rows 5 to 9, presented in the same cycle. -/
theorem test_step_draws_glyph :
    (result (step { ((State.reset.setV 1 5).setI 0x050).withFetchWord 16 0xD015 with hostTurns := quietHost 1 })).map
      (fun t => ([4, 5, 6, 9, 10].map (litCols t.frameOut), t.getV VF)) =
      some ([[], [0, 1, 2, 3], [0, 3], [0, 1, 2, 3], []], 0) := by decide

/-! ## Witnesses: states and operands that meet the hypotheses of each statement -/

/-- A running state whose next word is `w`. -/
def ready (w : Nat) : State := { State.reset.withFetchWord 16 w with hostTurns := quietHost 1 }

theorem witness_EncodeOfDecode : ∃ i, decodeWord 0x8014 = some i := ⟨_, rfl⟩

theorem witness_RecognisedWordsMatchOneRow : ((0xF00F, 0x8004) : Word × Word) ∈ specRows ∧ (0x8014 : Word) &&& 0xF00F = 0x8004 := by
  decide

theorem witness_StepRunsDecodedInstruction :
    (ready 0x8014).Running ∧ (ready 0x8014).pc.toNat ≤ 0xFFE ∧
    decodeBytes [(ready 0x8014).memRead (ready 0x8014).pc.toNat, (ready 0x8014).memRead ((ready 0x8014).pc.toNat + 1)] =
      .ok (.addVxVy 0 1, []) ∧
    ∃ t, exec (.addVxVy 0 1) ((ready 0x8014).tickTimers.setPc ((ready 0x8014).pc + 2)) = .next t :=
  ⟨⟨rfl, rfl⟩, by decide, rfl, _, rfl⟩

theorem witness_UnrecognisedWordIsNoOp :
    (ready 0x5121).Running ∧ (ready 0x5121).pc.toNat ≤ 0xFFE ∧
    decodeWord (wordOfBytes ((ready 0x5121).memRead 0x200) ((ready 0x5121).memRead 0x201)) = none :=
  ⟨⟨rfl, rfl⟩, by decide, by decide⟩

theorem witness_FetchPastMemoryFaults : (State.reset.setPc 0xFFF).Running ∧ 0xFFE < (State.reset.setPc 0xFFF).pc.toNat :=
  ⟨⟨rfl, rfl⟩, by decide⟩

theorem witness_HostExchangeEffect : (ready 0x00E0).hostTurns = ⟨0, false⟩ :: [] := by decide

theorem witness_TerminalStatesHaveNoCycle :
    (State.reset.raiseFatal (.fetchRange 0xFFF)).fault = some (.fetchRange 0xFFF) ∧
    ({ State.reset with runEnded := true } : State).fault = none ∧ ({ State.reset with runEnded := true } : State).runEnded = true :=
  ⟨rfl, rfl, rfl⟩

theorem witness_FatalEndsTheCycle :
    (∃ t, step (ready 0x00EE) = .next t ∧ t.fault = some (.stackUnderflow 0x200)) ∧
    (∃ t, step (State.reset.setPc 0xFFF) = .next t ∧ t.fault = some (.fetchRange 0xFFF)) :=
  ⟨⟨_, rfl, by decide⟩, ⟨_, rfl, by decide⟩⟩

theorem witness_CompletedCycleExchangesWithHost : ∃ t, step (ready 0x00E0) = .next t ∧ t.fault = none := ⟨_, rfl, by decide⟩

theorem witness_TimerTick : 0 < (5 : Byte).toNat ∧ 9 + 1 = 10 ∧ 8 + 1 ≠ 10 ∧ State.reset.Running := ⟨by decide, rfl, by decide, rfl, rfl⟩

/-- The first decrement, and the one that reaches 0. -/
theorem witness_TimerReadback : 3 < 10 ∧ 1 ≤ 1 ∧ 1 ≤ (5 : Byte).toNat ∧ 5 ≤ (5 : Byte).toNat ∧ 5 = (5 : Byte).toNat := by decide

theorem witness_RomLoadWritesRom : Rom.wellFormed [] = true ∧ Rom.wellFormed (List.replicate 3584 0) = true :=
  ⟨rfl, test_rom_too_long.2⟩

theorem witness_RomSizeLimit :
    3584 < (List.replicate 3585 (0 : Byte)).length ∧ (List.replicate 3584 (0 : Byte)).length ≤ 3584 :=
  ⟨by rw [List.length_replicate]; decide, by rw [List.length_replicate]⟩

theorem witness_inv_ready : (ready 0x00E0).Inv :=
  ⟨by decide, timerPeriod_pos, timerPeriod_pos, by decide, Nat.zero_le _, fun k h => absurd h (Nat.not_lt_zero k), rfl⟩

theorem witness_StepKeepsInvariant : (ready 0x00E0).Inv ∧ ∃ t, step (ready 0x00E0) = .next t :=
  ⟨witness_inv_ready, _, rfl⟩

theorem witness_RomLoadKeepsInvariant : (ready 0x00E0).Inv ∧ ∃ t, (ready 0x00E0).loadRom [0x12, 0x00] = .next t :=
  ⟨witness_inv_ready, _, rfl⟩

/-- Depths 1 and 16, and the empty stack. -/
theorem witness_ReturnPopsPc :
    ({ State.reset with sp := 1 } : State).sp.val ≠ 0 ∧ ({ State.reset with sp := 16 } : State).sp.val ≠ 0 ∧
    State.reset.sp.val = 0 := by decide

theorem witness_CallPushesReturnAddress : State.reset.sp.val < 16 ∧ ({ State.reset with sp := 15 } : State).sp.val < 16 := by
  decide

theorem witness_CallOnFullStackFaults :
    16 ≤ ({ State.reset with sp := 16 } : State).sp.val ∧ 16 ≤ ({ State.reset with sp := 64 } : State).sp.val := by decide

theorem witness_CallThenReturnRestoresPc :
    ∃ t u : State, (withRegs []).sp.val < 16 ∧ exec (.call 0x300) (withRegs []) = .next t ∧ u.stack = t.stack ∧ u.sp = t.sp :=
  ⟨_, _, by decide, rfl, rfl, rfl⟩

/-- The clause for a destination other than VF; the others have no hypothesis. -/
theorem witness_AddWithCarry : (0 : Reg) ≠ VF ∧ (14 : Reg) ≠ VF := by decide

/-- The clause for a destination other than VF; the others have no hypothesis. -/
theorem witness_SubtractWithNotBorrow : (0 : Reg) ≠ VF ∧ (14 : Reg) ≠ VF := by decide

/-- A register other than VF, VF itself, and each reading and order of the shifts. -/
theorem witness_Shifts :
    (3 : Reg) ≠ VF ∧ ((VF : Reg) ≠ VF ∨ ShiftXfOrder.flagThenResult = .flagThenResult) ∧
    ((VF : Reg) ≠ VF ∨ ShiftXfOrder.resultThenFlag = .resultThenFlag) ∧
    (withRegs [(3, 0x05)]).getV 3 = (if ShiftQuirk.inPlace = .inPlace then (withRegs [(3, 0x05)]).getV 3 else 0) := by decide

theorem witness_RandomByteMasked :
    ({ State.reset with rndBytes := [0xA7] } : State).rndBytes = 0xA7 :: [] ∧ (0x00 : Byte) = 0 := by decide

theorem witness_GlyphAddress : 15 < 16 ∧ 4 < 5 := by decide

theorem witness_DecimalDigitsStored : indexBase (State.reset.setI 0xFFD) ≤ 0xFFD := by decide

theorem witness_RegistersStored : indexBase (State.reset.setI 0xFF0) + (15 : Reg).val ≤ 0xFFF ∧ (15 : Reg) ≤ 15 := by decide

theorem witness_RegistersLoaded :
    indexBase (State.reset.setI 0xFFF) + (0 : Reg).val ≤ 0xFFF ∧ (0 : Reg) ≤ 0 ∧ (0 : Reg) < 1 := by decide

theorem witness_AccessPastMemoryFaults :
    0xFFD < indexBase (State.reset.setI 0xFFE) ∧ 0xFFF < indexBase (State.reset.setI 0x1000) + (0 : Reg).val ∧
    0xFFF < indexBase (State.reset.setI 0xFF1) + (15 : Reg).val := by decide

theorem witness_StoredRegistersReload :
    ∃ t u : State, indexBase (State.reset.setI 0x300) + (2 : Reg).val ≤ 0xFFF ∧
      exec (.ldMemVx 2) (State.reset.setI 0x300) = .next t ∧ u.mem = t.mem ∧ u.i = (State.reset.setI 0x300).i :=
  ⟨_, { (State.reset.setI 0x300) with mem := _ }, by decide, rfl, rfl, rfl⟩

/-- No row at a high I, and the last sprite byte at 0xFFF. -/
theorem witness_DrawFlipsSpritePixels :
    ((0 : BitVec 4) = 0 ∨ indexBase (State.reset.setI 0xFFFF) + (0 : BitVec 4).toNat - 1 ≤ 0xFFF) ∧
    ((2 : BitVec 4) = 0 ∨ indexBase (State.reset.setI 0xFFE) + (2 : BitVec 4).toNat - 1 ≤ 0xFFF) := by decide

theorem witness_SpritePastMemoryFaults :
    (3 : BitVec 4) ≠ 0 ∧ 0xFFF < indexBase (State.reset.setI 0xFFE) + (3 : BitVec 4).toNat - 1 := by decide

theorem witness_DrawTwiceRestoresFrame :
    ∃ t u : State, ((1 : BitVec 4) = 0 ∨ indexBase (State.reset.setI 0x050) + (1 : BitVec 4).toNat - 1 ≤ 0xFFF) ∧
      exec (.drw 0 1 1) (State.reset.setI 0x050) = .next t ∧ u.fb = t.fb ∧ u.mem = (State.reset.setI 0x050).mem ∧
      u.i = (State.reset.setI 0x050).i ∧ u.getV 0 = (State.reset.setI 0x050).getV 0 ∧
      u.getV 1 = (State.reset.setI 0x050).getV 1 :=
  ⟨_, _, by decide, rfl, rfl, rfl, rfl, by decide, by decide⟩

theorem witness_KeySkips :
    ((withRegs [(4, 0x0F)]).getV 4).toNat ≤ 0xF ∧ 0xF < ((withRegs [(4, 0x10)]).getV 4).toNat := by decide

theorem witness_WaitForKey :
    15 < 16 ∧ ({ State.reset with key := 0x8000 } : State).keyPressed 15 = true ∧
    (∀ j, j < 15 → ({ State.reset with key := 0x8000 } : State).keyPressed j = false) ∧
    ∀ k, k < 16 → State.reset.keyPressed k = false := by decide

/-- A running state about to fetch the wait, the DT read and the ST write. -/
theorem witness_Fetches :
    (ready 0xF20A).Fetches (.ldVxK 2) ∧ (∀ k, k < 16 → (ready 0xF20A).keyPressed k = false) ∧
    (ready 0xF307).Fetches (.ldVxDt 3) ∧ (ready 0xF118).Fetches (.ldStVx 1) :=
  ⟨⟨⟨rfl, rfl⟩, by decide, rfl⟩, by decide, ⟨⟨rfl, rfl⟩, by decide, rfl⟩, ⟨rfl, rfl⟩, by decide, rfl⟩

theorem witness_WritersOfMemoryAndFrame :
    (∃ t, exec (.jp 0x200) State.reset = .next t) ∧ (∀ x, Instr.jp 0x200 ≠ .ldBVx x ∧ Instr.jp 0x200 ≠ .ldMemVx x) ∧
    Instr.jp 0x200 ≠ .cls ∧ ∀ x y n, Instr.jp 0x200 ≠ .drw x y n := ⟨⟨_, rfl⟩, by simp, by simp, by simp⟩

theorem witness_WritersOfIndexTimersStack :
    (∃ t, exec (.jp 0x200) State.reset = .next t) ∧ (∀ a, Instr.jp 0x200 ≠ .ldINnn a) ∧
    (∀ x, Instr.jp 0x200 ≠ .addIVx x ∧ Instr.jp 0x200 ≠ .ldFVx x) ∧ (∀ x, Instr.jp 0x200 ≠ .ldDtVx x) ∧
    (∀ x, Instr.jp 0x200 ≠ .ldStVx x) ∧ Instr.jp 0x200 ≠ .ret ∧ ∀ a, Instr.jp 0x200 ≠ .call a :=
  ⟨⟨_, rfl⟩, by simp, by simp, by simp, by simp, by simp, by simp⟩

theorem witness_InstructionsLeaveHostState : ∃ t, exec .cls State.reset = .next t := ⟨_, rfl⟩

/-- A load of a register other than VF is none of the instructions the statement leaves out. -/
theorem witness_WritersOfFlag :
    (∃ t, exec (.ldVxMem 14) State.reset = .next t) ∧
    (∀ x y, Instr.ldVxMem 14 ≠ .addVxVy x y ∧ Instr.ldVxMem 14 ≠ .sub x y ∧ Instr.ldVxMem 14 ≠ .subn x y ∧
      Instr.ldVxMem 14 ≠ .shr x y ∧ Instr.ldVxMem 14 ≠ .shl x y) ∧
    (∀ x y n, Instr.ldVxMem 14 ≠ .addIVx x ∧ Instr.ldVxMem 14 ≠ .drw x y n) ∧
    (∀ nn, Instr.ldVxMem 14 ≠ .ldVxNn VF nn ∧ Instr.ldVxMem 14 ≠ .addVxNn VF nn ∧ Instr.ldVxMem 14 ≠ .rnd VF nn) ∧
    (∀ y, Instr.ldVxMem 14 ≠ .ldVxVy VF y ∧ Instr.ldVxMem 14 ≠ .or VF y ∧ Instr.ldVxMem 14 ≠ .and VF y ∧
      Instr.ldVxMem 14 ≠ .xor VF y) ∧
    Instr.ldVxMem 14 ≠ .ldVxDt VF ∧ Instr.ldVxMem 14 ≠ .ldVxK VF ∧ Instr.ldVxMem 14 ≠ .ldVxMem VF :=
  ⟨⟨_, rfl⟩, by simp, by simp, by simp, by simp, by simp, by simp, by decide⟩

/-- Each of the six causes. -/
theorem witness_FatalCauses :
    (∃ t, exec (.call 0x300) { State.reset with sp := 16 } = .next t ∧ t.fault.isSome = true) ∧
    (∃ t, exec .ret State.reset = .next t ∧ t.fault.isSome = true) ∧
    (∃ t, exec (.skp 4) (withRegs [(4, 0x10)]) = .next t ∧ t.fault.isSome = true) ∧
    (∃ t, exec (.ldBVx 0) (State.reset.setI 0xFFE) = .next t ∧ t.fault.isSome = true) ∧
    (∃ t, exec (.ldMemVx 3) (State.reset.setI 0xFFD) = .next t ∧ t.fault.isSome = true) ∧
    (∃ t, exec (.drw 0 1 3) (State.reset.setI 0xFFE) = .next t ∧ t.fault.isSome = true) ∧ State.reset.fault = none :=
  ⟨⟨_, rfl, by decide⟩, ⟨_, rfl, by decide⟩, ⟨_, rfl, by decide⟩, ⟨_, rfl, by decide⟩, ⟨_, rfl, by decide⟩,
    ⟨_, rfl, by decide⟩, rfl⟩

theorem witness_SoundTimerIsNotRead : (∃ t, exec (.ldStVx 1) State.reset = .next t) ∧ ∃ t, exec (.ldVxDt 1) State.reset = .next t :=
  ⟨⟨_, rfl⟩, ⟨_, rfl⟩⟩

theorem witness_StoredBytesAreFetched :
    ∃ t u : State, indexBase (State.reset.setI 0xFFE) + (1 : Reg).val ≤ 0xFFF ∧
      exec (.ldMemVx 1) (State.reset.setI 0xFFE) = .next t ∧ (1 : Reg) ≤ 1 ∧ (0 : Reg).val + 1 = (1 : Reg).val ∧
      u.mem = t.mem ∧ u.pc.toNat = indexBase (State.reset.setI 0xFFE) + (0 : Reg).val :=
  ⟨_, { State.reset with mem := _, pc := 0xFFE }, by decide, rfl, by decide, by decide, rfl, by decide⟩

theorem witness_FlagIsZeroOrOne :
    (∃ t, t.fault = none ∧ exec (.addVxVy 0 1) State.reset = .next t) ∧ State.reset.fault = none ∧
    (0 : Reg) ≠ VF ∧ (∃ t, t.fault = none ∧ exec (.shr 0 1) State.reset = .next t) ∧
    ∃ t, t.fault = none ∧ exec (.drw 0 1 0) State.reset = .next t :=
  ⟨⟨_, rfl, rfl⟩, rfl, by decide, ⟨_, rfl, rfl⟩, ⟨_, rfl, rfl⟩⟩

theorem witness_PlacedWordIsFetched : (State.reset.setPc 0xFFE).pc.toNat ≤ 0xFFE := by decide

/-! ## Parameters -/

/-- The conventions of spec/95_test_vectors.md, with CYCLE_RATE = 600. -/
def at600 : Params := { hardware with cycleRate := 600 }

/-- The same under COPY_VY, with the greatest capacity the spec names. -/
def copyVy64 : Params := { at600 with shiftQuirk := .copyVy, stackCapacity := 64 }

/-- L1.8, L2.6.14, L2.6.18: at 600 cycles a second the tenth tick of DT = 1 makes it 0. -/
theorem test_step_with_rate :
    (result (stepWith at600 { ready 0x00E0 with dt := 1, dtAcc := 9, stAcc := 4 })).map
      (fun t => (t.dt, t.dtAcc, t.st, t.stAcc)) = some (0, 0, 0, 4) := by decide

/-- L2.3.23: a step of SHR under COPY_VY; the source is V1. -/
theorem test_step_with_copy_vy :
    (result (stepWith copyVy64 (((ready 0x8016).setV 0 0xFF).setV 1 0x04))).map (fun t => (t.getV 0, t.getV VF)) =
      some (0x02, 0) := by decide

/-- spec/90_conflicts.md C1: the seventeenth push under capacity 64, and L2.2.5 under 16. -/
theorem test_step_with_capacity :
    (result (stepWith copyVy64 { ready 0x2300 with sp := 16 })).map (fun t => (t.fault, t.slot 16, t.sp.val)) =
      some (none, 0x202, 17) ∧
    (result (stepWith at600 { ready 0x2300 with sp := 16 })).map State.fault = some (some (.stackOverflow 0x200)) := by decide

/-- R8: a launch with period 0 is refused. -/
theorem test_launch_rate_59 : result (launch { at600 with cycleRate := 59 } []) = none := by decide

/-- R11: a font of another shape stands at 0x050 after construction. -/
theorem test_construct_font :
    (State.construct { at600 with font := List.replicate 80 0xAA }).memRead 0x09F = 0xAA := by decide

theorem witness_StepUnderParameters :
    (ready 0x8016).Fetches (.shr 0 1) ∧ copyVy64.stackCapacity ≤ 64 ∧
    ({ State.reset with sp := 63 } : State).sp.val < copyVy64.stackCapacity ∧
    at600.stackCapacity ≤ ({ State.reset with sp := 16 } : State).sp.val ∧
    (∀ nnn, Instr.cls ≠ .call nnn) ∧ (∀ x y, Instr.cls ≠ .shr x y ∧ Instr.cls ≠ .shl x y) :=
  ⟨⟨⟨rfl, rfl⟩, by decide, rfl⟩, by decide, by decide, by decide, by simp, by simp⟩

/-- No byte of MEM_INIT given, and two of them; the last address below the font and the first above it. -/
theorem witness_LaunchUnderParameters :
    copyVy64.wellFormed = true ∧ ({ at600 with memInit := [0x12, 0x34] } : Params).wellFormed = true ∧
    79 < copyVy64.font.length ∧ (1 < [0x12, 0x34].length ∧ 1 < 0x050) ∧
    ([0x12, 0x34].length ≤ 0x04F ∧ 0x04F < 0x050) ∧ [0x12, 0x34].length ≤ 0x0A0 ∧
    ({ at600 with cycleRate := 59 } : Params).cycleRate < 60 := by decide

end Sys2Proof.Tests
end

section
/-! The jumps and the register skips (spec/40_control_flow.md): each sets PC, by one equation per instruction, and setting PC
changes nothing else. -/

namespace Sys2Proof.Machine

/-! ### An instruction that sets PC -/

theorem onlyPc_setPc (s : State) (a : Word) : OnlyPc s (s.setPc a) :=
  ⟨fun r _ => State.getV_setPc s a r, State.memRead_setPc s a, rfl⟩

theorem exists_next_onlyPc {i : Instr} {s : State} {a : Word} (h : exec i s = .next (s.setPc a)) :
    ∃ t, exec i s = .next t ∧ t.pc = a ∧ OnlyPc s t :=
  ⟨s.setPc a, h, State.setPc_pc s a, onlyPc_setPc s a⟩

/-! ### Jump targets as natural numbers -/

@[simp] theorem addrOperand_toNat (nnn : BitVec 12) : (addrOperand nnn).toNat = nnn.toNat :=
  BitVec.toNat_setWidth_of_le (by decide)

/-- The sum of R107 does not wrap: it is at most 0x0FFF + 0x00FF. -/
theorem jumpV0Target_toNat (s : State) (nnn : BitVec 12) :
    (jumpV0Target s nnn).toNat = nnn.toNat + (s.getV 0).toNat := by
  have hv : ((s.getV 0).zeroExtend 16).toNat = (s.getV 0).toNat := BitVec.toNat_setWidth_of_le (by decide)
  have hn := nnn.isLt
  have hb := (s.getV 0).isLt
  rw [jumpV0Target, BitVec.toNat_add, addrOperand_toNat, hv]
  exact Nat.mod_eq_of_lt (by omega)

/-! ### What each instruction sets PC to -/

theorem exec_jp (nnn : BitVec 12) (s : State) : exec (.jp nnn) s = .next (s.setPc (addrOperand nnn)) := rfl

theorem exec_jpV0Nnn (nnn : BitVec 12) (s : State) :
    exec (.jpV0Nnn nnn) s = .next (s.setPc (jumpV0Target s nnn)) := rfl

theorem exec_seVxNn (x : Reg) (nn : Byte) (s : State) :
    exec (.seVxNn x nn) s = .next (s.setPc (if s.getV x = nn then s.pc + 2 else s.pc)) := by
  simp [exec, execSeVxNn, State.skipIf_eq]

theorem exec_sneVxNn (x : Reg) (nn : Byte) (s : State) :
    exec (.sneVxNn x nn) s = .next (s.setPc (if s.getV x = nn then s.pc else s.pc + 2)) := by
  simp [exec, execSneVxNn, State.skipIf_eq]

theorem exec_seVxVy (x y : Reg) (s : State) :
    exec (.seVxVy x y) s = .next (s.setPc (if s.getV x = s.getV y then s.pc + 2 else s.pc)) := by
  simp [exec, execSeVxVy, State.skipIf_eq]

theorem exec_sneVxVy (x y : Reg) (s : State) :
    exec (.sneVxVy x y) s = .next (s.setPc (if s.getV x = s.getV y then s.pc else s.pc + 2)) := by
  simp [exec, execSneVxVy, State.skipIf_eq]

/-! ### The obligations -/

/-- Settles O22: both jumps set PC, and neither target wraps. -/
theorem jumpsSetPc : Obligations.JumpsSetPc := by
  refine ⟨encoded_of_row (r := opcodeTable[2]) (List.getElem_mem _),
    encoded_of_row (r := opcodeTable[20]) (List.getElem_mem _), fun nnn s => ?jp, fun nnn s => ?jpV0⟩
  case jp =>
    obtain ⟨t, ht, hpc, hframe⟩ := exists_next_onlyPc (exec_jp nnn s)
    exact ⟨t, ht, by rw [hpc, addrOperand_toNat], hframe⟩
  case jpV0 =>
    obtain ⟨t, ht, hpc, hframe⟩ := exists_next_onlyPc (exec_jpV0Nnn nnn s)
    exact ⟨t, ht, by rw [hpc, jumpV0Target_toNat], hframe⟩

/-- Settles O26: every skip sets PC, to the value its comparison selects. -/
theorem skipsOnComparison : Obligations.SkipsOnComparison :=
  ⟨encoded_of_row (r := opcodeTable[4]) (List.getElem_mem _),
    encoded_of_row (r := opcodeTable[5]) (List.getElem_mem _),
    encoded_of_row (r := opcodeTable[6]) (List.getElem_mem _),
    encoded_of_row (r := opcodeTable[18]) (List.getElem_mem _),
    fun x nn s => exists_next_onlyPc (exec_seVxNn x nn s),
    fun x nn s => exists_next_onlyPc (exec_sneVxNn x nn s),
    fun x y s => exists_next_onlyPc (exec_seVxVy x y s),
    fun x y s => exists_next_onlyPc (exec_sneVxVy x y s)⟩

end Sys2Proof.Machine
end

section
/-! The register loads, the logic operations and the shifts (spec/41_alu.md): each writes V[x], and a shift VF as well, by one
equation per instruction, and writing registers changes nothing else. -/

namespace Sys2Proof.Machine

/-! ### An instruction that writes registers -/

theorem OnlyRegs.refl (ws : List Reg) (s : State) : OnlyRegs ws s s :=
  ⟨fun _ _ => rfl, fun _ => rfl, rfl⟩

/-- A further write to a register of the list keeps the frame. -/
theorem OnlyRegs.setV {ws : List Reg} {s t : State} (h : OnlyRegs ws s t) {x : Reg} (hx : x ∈ ws) (b : Byte) :
    OnlyRegs ws s (t.setV x b) := by
  obtain ⟨hregs, hmem, hrest⟩ := h
  refine ⟨fun r hr => ?regs, hmem, ?rest⟩
  case regs =>
    have hne : r ≠ x := fun e => hr (e ▸ hx)
    rw [State.getV_setV_ne t hne, hregs r hr]
  case rest => rw [hrest]; rfl

theorem exists_next_onlyRegs {i : Instr} {s : State} {x : Reg} {b : Byte} (h : exec i s = .next (s.setV x b)) :
    ∃ t, exec i s = .next t ∧ t.getV x = b ∧ OnlyRegs [x] s t :=
  ⟨s.setV x b, h, State.getV_setV_self s x b, (OnlyRegs.refl [x] s).setV (List.mem_singleton_self x) b⟩

/-! ### The two writes of a shift (R121, R131): with x = F the later one stays -/

theorem getV_setShifted_result (s : State) {o : ShiftXfOrder} {x : Reg} (h : x ≠ VF ∨ o = .flagThenResult)
    (res flag : Byte) : (s.setShifted o x res flag).getV x = res := by
  cases o with
  | flagThenResult => exact State.getV_setV_self ..
  | resultThenFlag =>
    have hx : x ≠ VF := h.resolve_right (by decide)
    exact (State.getV_setV_ne _ hx _).trans (State.getV_setV_self ..)

theorem getV_setShifted_flag (s : State) {o : ShiftXfOrder} {x : Reg} (h : x ≠ VF ∨ o = .resultThenFlag)
    (res flag : Byte) : (s.setShifted o x res flag).getV VF = flag := by
  cases o with
  | flagThenResult =>
    have hx : x ≠ VF := h.resolve_right (by decide)
    exact (State.getV_setV_ne _ hx.symm _).trans (State.getV_setV_self ..)
  | resultThenFlag => exact State.getV_setV_self ..

theorem onlyRegs_setShifted (s : State) (o : ShiftXfOrder) (x : Reg) (res flag : Byte) :
    OnlyRegs [x, VF] s (s.setShifted o x res flag) := by
  have hx : x ∈ [x, VF] := List.mem_cons_self
  have hf : VF ∈ [x, VF] := List.mem_cons_of_mem x List.mem_cons_self
  cases o with
  | flagThenResult => exact ((OnlyRegs.refl _ s).setV hf flag).setV hx res
  | resultThenFlag => exact ((OnlyRegs.refl _ s).setV hx res).setV hf flag

/-! ### The source of a shift, its result and the bit shifted out, as natural numbers -/

theorem shiftSource_eq (q : ShiftQuirk) (s : State) (x y : Reg) :
    shiftSource q s x y = if q = .inPlace then s.getV x else s.getV y := by
  cases q <;> rfl

theorem toNat_ushiftRight_one (a : Byte) : (a >>> 1).toNat = a.toNat / 2 := by
  rw [BitVec.toNat_ushiftRight, Nat.shiftRight_eq_div_pow, Nat.pow_one]

theorem toNat_shiftLeft_one (a : Byte) : (a <<< 1).toNat = a.toNat * 2 % 256 := by
  rw [BitVec.toNat_shiftLeft, Nat.shiftLeft_eq, Nat.pow_one]

theorem flagByte_toNat (c : Bool) : (flagByte c).toNat = c.toNat := by cases c <;> rfl

theorem lowBitFlag_toNat (a : Byte) : (lowBitFlag a).toNat = a.toNat % 2 := by
  rw [lowBitFlag, flagByte_toNat, BitVec.getLsbD, Nat.toNat_testBit, Nat.pow_zero, Nat.div_one]

/-- Bit 7 is the top bit, so nothing is left to reduce modulo 2. -/
theorem highBitFlag_toNat (a : Byte) : (highBitFlag a).toNat = a.toNat / 128 := by
  have ha := a.isLt
  rw [highBitFlag, flagByte_toNat, BitVec.getLsbD, Nat.toNat_testBit]
  omega

/-! ### What each instruction writes -/

theorem exec_ldVxNn (x : Reg) (nn : Byte) (s : State) : exec (.ldVxNn x nn) s = .next (s.setV x nn) := rfl

theorem exec_addVxNn (x : Reg) (nn : Byte) (s : State) :
    exec (.addVxNn x nn) s = .next (s.setV x (s.getV x + nn)) := rfl

theorem exec_ldVxVy (x y : Reg) (s : State) : exec (.ldVxVy x y) s = .next (s.setV x (s.getV y)) := rfl

theorem exec_or (x y : Reg) (s : State) : exec (.or x y) s = .next (s.setV x (s.getV x ||| s.getV y)) := rfl

theorem exec_and (x y : Reg) (s : State) : exec (.and x y) s = .next (s.setV x (s.getV x &&& s.getV y)) := rfl

theorem exec_xor (x y : Reg) (s : State) : exec (.xor x y) s = .next (s.setV x (s.getV x ^^^ s.getV y)) := rfl

theorem exec_shr (x y : Reg) (s : State) :
    exec (.shr x y) s = .next (shiftRight shiftQuirk shiftXfOrder x y s) := rfl

theorem exec_shl (x y : Reg) (s : State) :
    exec (.shl x y) s = .next (shiftLeft shiftQuirk shiftXfOrder x y s) := rfl

/-! ### The obligations -/

/-- Settles O27: each of the three writes V[x] once, and the sum of two bytes is their sum modulo 256. -/
theorem loadAndAddImmediate : Obligations.LoadAndAddImmediate := by
  refine ⟨encoded_of_row (r := opcodeTable[7]) (List.getElem_mem _),
    encoded_of_row (r := opcodeTable[8]) (List.getElem_mem _),
    encoded_of_row (r := opcodeTable[9]) (List.getElem_mem _),
    fun x nn s => exists_next_onlyRegs (exec_ldVxNn x nn s), fun x nn s => ?add,
    fun x y s => exists_next_onlyRegs (exec_ldVxVy x y s)⟩
  case add =>
    obtain ⟨t, ht, hx, hframe⟩ := exists_next_onlyRegs (exec_addVxNn x nn s)
    exact ⟨t, ht, by rw [hx, BitVec.toNat_add], hframe⟩

/-- Settles O28: each of the three writes V[x] once, with the operation on bytes that acts bit by bit. -/
theorem logicOperations : Obligations.LogicOperations := by
  refine ⟨encoded_of_row (r := opcodeTable[10]) (List.getElem_mem _),
    encoded_of_row (r := opcodeTable[11]) (List.getElem_mem _),
    encoded_of_row (r := opcodeTable[12]) (List.getElem_mem _), fun x y s => ?or, fun x y s => ?and, fun x y s => ?xor⟩
  case or =>
    obtain ⟨t, ht, hx, hframe⟩ := exists_next_onlyRegs (exec_or x y s)
    exact ⟨t, ht, fun k => by rw [hx, BitVec.getLsbD_or], hframe⟩
  case and =>
    obtain ⟨t, ht, hx, hframe⟩ := exists_next_onlyRegs (exec_and x y s)
    exact ⟨t, ht, fun k => by rw [hx, BitVec.getLsbD_and], hframe⟩
  case xor =>
    obtain ⟨t, ht, hx, hframe⟩ := exists_next_onlyRegs (exec_xor x y s)
    exact ⟨t, ht, fun k => by rw [hx, BitVec.getLsbD_xor], hframe⟩

/-- Settles O31: the two writes of SHR, with the source halved and its bit 0. -/
theorem shiftRightByOne : Obligations.ShiftRightByOne := by
  refine ⟨encoded_of_row (r := opcodeTable[15]) (List.getElem_mem _), fun x y s => ⟨exec_shr x y s, fun q o src hsrc => ?_⟩⟩
  rw [← shiftSource_eq] at hsrc
  rw [shiftRight, ← hsrc]
  exact ⟨fun h => by rw [getV_setShifted_result s h, toNat_ushiftRight_one],
    fun h => by rw [getV_setShifted_flag s h, lowBitFlag_toNat], onlyRegs_setShifted s o x _ _⟩

/-- Settles O32: the two writes of SHL, with the source doubled modulo 256 and its bit 7. -/
theorem shiftLeftByOne : Obligations.ShiftLeftByOne := by
  refine ⟨encoded_of_row (r := opcodeTable[17]) (List.getElem_mem _), fun x y s => ⟨exec_shl x y s, fun q o src hsrc => ?_⟩⟩
  rw [← shiftSource_eq] at hsrc
  rw [shiftLeft, ← hsrc]
  exact ⟨fun h => by rw [getV_setShifted_result s h, toNat_shiftLeft_one],
    fun h => by rw [getV_setShifted_flag s h, highBitFlag_toNat], onlyRegs_setShifted s o x _ _⟩

end Sys2Proof.Machine
end

section
/-! Clearing the screen (spec/43_display.md, R170): CLS puts the clear frame in FB, and putting a frame there changes nothing
else. -/

namespace Sys2Proof.Machine

theorem exec_cls (s : State) : exec .cls s = .next (s.setFb Frame.clear) := rfl

/-- The frame of an instruction that writes FB alone. -/
theorem setFb_changes_only_fb (s : State) (f : Frame) :
    SameRegsBut [] s (s.setFb f) ∧ SameMemory s (s.setFb f) ∧ s.setFb f = { s with fb := (s.setFb f).fb } :=
  ⟨fun r _ => State.getV_setFb s f r, State.memRead_setFb s f, rfl⟩

/-- Settles O42: the frame CLS leaves is the clear one, whose every pixel is 0. -/
theorem clearScreen : Obligations.ClearScreen :=
  ⟨encoded_of_row (r := opcodeTable[0]) (List.getElem_mem _),
    fun s => ⟨s.setFb Frame.clear, exec_cls s, fun r c _ _ => Frame.pixel_clear r c,
      setFb_changes_only_fb s Frame.clear⟩⟩

end Sys2Proof.Machine
end

section
/-! A cycle whose fetch reads a known instruction (spec/60_exceptions.md R230): it is the tick, the fetch advance and that
instruction, and the host exchange follows when the instruction raises no fatal. -/

namespace Sys2Proof.Machine

theorem decodeBytes_pair {hi lo : Byte} {i : Instr} (h : decodeBytes [hi, lo] = .ok (i, [])) :
    decodeWord (wordOfBytes hi lo) = some i := by
  cases hw : decodeWord (wordOfBytes hi lo) with
  | none => simp [decodeBytes, hw] at h
  | some j => simpa [decodeBytes, hw] using h

/-- Of the fetch and the decode nothing depends on the tick, which leaves PC and memory. -/
theorem cycle_of_fetches {s : State} {i : Instr} (h : s.Fetches i) (p : Nat) (ex : Execution) :
    cycle p ex s = finishCycle (ex i (s.tickTimersBy p).advancePc) := by
  obtain ⟨⟨hfault, hended⟩, hpc, hbytes⟩ := h
  have hfetch : (s.tickTimersBy p).fetchWord =
      .ok (wordOfBytes (s.memRead s.pc.toNat) (s.memRead (s.pc.toNat + 1))) := State.fetchWord_ok hpc
  simp [cycle, hfault, hended, runInstruction, hfetch, execWord, decodeBytes_pair hbytes]

theorem finishCycle_of_safe {t : State} (h : t.fault = none) : finishCycle (.next t) = .next t.hostExchange := by
  simp [finishCycle, h]

/-- The step that runs an instruction which raises no fatal. -/
theorem step_of_fetches {s t : State} {i : Instr} (h : s.Fetches i) (hexec : exec i s.tickTimers.advancePc = .next t)
    (hsafe : t.fault = none) : step s = .next t.hostExchange := by
  have hcycle : step s = finishCycle (exec i s.tickTimers.advancePc) := cycle_of_fetches h timerPeriod exec
  rw [hcycle, hexec, finishCycle_of_safe hsafe]

theorem State.Fetches.fault_eq_none {s : State} {i : Instr} (h : s.Fetches i) : s.fault = none :=
  let ⟨⟨hfault, _⟩, _⟩ := h; hfault

end Sys2Proof.Machine
end

section
/-! The wait for a key and the timer accesses (spec/44_keypad_timers.md, R192 to R195): each writes one register, PC or one
timer counter, by one equation per instruction, and what a cycle makes of it. -/

namespace Sys2Proof.Machine

/-! ### The frames of FX15 and FX18: a write of DT or of ST changes nothing else, the accumulators included -/

theorem setDt_changes_only_dt (s : State) (b : Byte) :
    SameRegsBut [] s (s.setDt b) ∧ SameMemory s (s.setDt b) ∧ s.setDt b = { s with dt := (s.setDt b).dt } :=
  ⟨fun r _ => State.getV_setDt s b r, State.memRead_setDt s b, rfl⟩

theorem setSt_changes_only_st (s : State) (b : Byte) :
    SameRegsBut [] s (s.setSt b) ∧ SameMemory s (s.setSt b) ∧ s.setSt b = { s with st := (s.setSt b).st } :=
  ⟨fun r _ => State.getV_setSt s b r, State.memRead_setSt s b, rfl⟩

/-- The rewind of FX0A undoes the fetch advance. -/
theorem setPc_instrPc_advancePc (s : State) : s.advancePc.setPc s.advancePc.instrPc = s := by
  rw [State.instrPc_advancePc]
  rfl

/-! ### What each instruction does -/

theorem exec_ldVxK_pressed (x : Reg) {s : State} {k : Nat} (h : s.lowestPressed = some k) :
    exec (.ldVxK x) s = .next (s.setV x (BitVec.ofNat 8 k)) := by
  simp [exec, execLdVxK, h]

theorem exec_ldVxK_waiting (x : Reg) {s : State} (h : s.lowestPressed = none) :
    exec (.ldVxK x) s = .next (s.setPc s.instrPc) := by
  simp [exec, execLdVxK, h, State.instrPc]

theorem exec_ldVxDt (x : Reg) (s : State) : exec (.ldVxDt x) s = .next (s.setV x s.dt) := rfl

theorem exec_ldDtVx (x : Reg) (s : State) : exec (.ldDtVx x) s = .next (s.setDt (s.getV x)) := rfl

theorem exec_ldStVx (x : Reg) (s : State) : exec (.ldStVx x) s = .next (s.setSt (s.getV x)) := rfl

/-! ### What a cycle that runs them does -/

/-- A waiting cycle: PC is back where it was, so only the tick and the host exchange are left of it. The keys that `hnone`
speaks of are also those after the tick and the fetch advance, which leave KEY. -/
theorem step_ldVxK_waiting {x : Reg} {s : State} (h : s.Fetches (.ldVxK x)) (hnone : s.lowestPressed = none) :
    step s = .next s.tickTimers.hostExchange := by
  have hexec : exec (.ldVxK x) s.tickTimers.advancePc = .next s.tickTimers := by
    rw [exec_ldVxK_waiting x (s := s.tickTimers.advancePc) hnone, setPc_instrPc_advancePc]
  exact step_of_fetches h hexec h.fault_eq_none

theorem step_ldVxDt {x : Reg} {s : State} (h : s.Fetches (.ldVxDt x)) :
    step s = .next (s.tickTimers.advancePc.setV x s.tickTimers.dt).hostExchange :=
  step_of_fetches h (exec_ldVxDt x _) h.fault_eq_none

theorem step_ldStVx {x : Reg} {s : State} (h : s.Fetches (.ldStVx x)) :
    step s = .next (s.tickTimers.advancePc.setSt (s.getV x)).hostExchange :=
  step_of_fetches h (exec_ldStVx x _) h.fault_eq_none

/-! ### The obligations -/

/-- Settles O47: FX0A writes the lowest pressed code, or it sets PC back and so repeats itself in the next cycle. -/
theorem waitForKey : Obligations.WaitForKey := by
  refine ⟨encoded_of_row (r := opcodeTable[26]) (List.getElem_mem _), fun x s k hk hdown hlow => ?pressed,
    fun x s hnone => ?waiting, fun x s hf hnone => step_ldVxK_waiting hf (s.lowestPressed_eq_none.2 hnone)⟩
  case pressed =>
    have hlowest : s.lowestPressed = some k := (s.lowestPressed_eq_some k).2 ⟨hk, hdown, hlow⟩
    obtain ⟨t, ht, hx, hframe⟩ := exists_next_onlyRegs (exec_ldVxK_pressed x hlowest)
    have hcode : (BitVec.ofNat 8 k).toNat = k := Nat.mod_eq_of_lt (by omega)
    exact ⟨t, ht, by rw [hx, hcode], hframe⟩
  case waiting =>
    exact exists_next_onlyPc (exec_ldVxK_waiting x (s.lowestPressed_eq_none.2 hnone))

/-- Settles O48: one write each, of V[x], DT or ST; in a cycle the tick stands before it and the beep after it. -/
theorem timerAccess : Obligations.TimerAccess := by
  refine ⟨encoded_of_row (r := opcodeTable[25]) (List.getElem_mem _),
    encoded_of_row (r := opcodeTable[27]) (List.getElem_mem _),
    encoded_of_row (r := opcodeTable[28]) (List.getElem_mem _),
    fun x s => exists_next_onlyRegs (exec_ldVxDt x s),
    fun x s => ⟨_, exec_ldDtVx x s, State.setDt_dt s _, setDt_changes_only_dt s _⟩,
    fun x s => ⟨_, exec_ldStVx x s, State.setSt_st s _, setSt_changes_only_st s _⟩,
    fun x s h => ⟨_, step_ldVxDt h, ?readsTicked⟩, fun x s h => ⟨_, step_ldStVx h, ?writesSt, ?beeps⟩⟩
  case readsTicked => rw [State.getV_hostExchange, State.getV_setV_self]
  case writesSt => rw [State.hostExchange_st, State.setSt_st]
  case beeps => rw [State.hostExchange_beepOut, State.setSt_st, decide_eq_true_iff, Nat.succ_le_iff]

end Sys2Proof.Machine
end

section
/-! The ROM load (spec/70_reset_and_hazards.md, R256): a ROM that fits is copied to 0x200, and a copy reads back byte by byte
and changes nothing else. -/

namespace Sys2Proof.Machine

/-- The load of a ROM that fits is a copy of its bytes to the fixed address. -/
theorem State.loadRom_of_wellFormed (s : State) {rom : Rom} (h : rom.wellFormed = true) :
    s.loadRom rom = .next (s.copyBytes 0x200 rom) :=
  if_pos h

theorem sameMemoryOutside_copyBytes (s : State) (a : Nat) (bs : List Byte) :
    SameMemoryOutside s (s.copyBytes a bs) a bs.length :=
  fun _ hb => State.memRead_copyBytes_outside s hb

/-- Settles O16: the loaded state is the one with the ROM copied to 0x200; copying no bytes gives the state itself. -/
theorem romLoadWritesRom : Obligations.RomLoadWritesRom := by
  intro s rom hfits
  refine ⟨s.copyBytes 0x200 rom, s.loadRom_of_wellFormed hfits, fun k hk => ?bytes,
    sameMemoryOutside_copyBytes s 0x200 rom, State.copyBytes_eq rom s 0x200, ?empty⟩
  case bytes => exact State.memRead_copyBytes_inside s hk
  case empty =>
    rintro rfl
    rfl

end Sys2Proof.Machine
end

section
/-! Decoding and encoding (spec/30_encoding.md): one lemma per format says that a row of the opcode map decodes the words its
format encodes, and one that a word which matches the row is encoded by its own fields. -/

namespace Sys2Proof

/-! ### Decoding an encoded word, format by format (R72) -/

theorem decodeWord_encodeNNN (f : BitVec 4) (c : BitVec 12 → Instr)
    (h : Encoded (encodeNNN f 0) 0xF000 fun w => c (fieldNNN w)) (nnn : BitVec 12) :
    decodeWord (encodeNNN f nnn) = some (c nnn) := by
  simp only [h _ (encodeNNN_mask f nnn), fieldNNN_encodeNNN]

theorem decodeWord_encodeXNN (f : BitVec 4) (c : Reg → Byte → Instr)
    (h : Encoded (encodeXNN f 0 0) 0xF000 fun w => c (fieldX w) (fieldNN w)) (x : Reg) (nn : Byte) :
    decodeWord (encodeXNN f x nn) = some (c x nn) := by
  simp only [h _ (encodeXNN_mask f x nn), fieldX_encodeXNN, fieldNN_encodeXNN]

/-- Format `X`: the low byte is the function code. -/
theorem decodeWord_encodeX (f : BitVec 4) (nn : Byte) (c : Reg → Instr)
    (h : Encoded (encodeXNN f 0 nn) 0xF0FF fun w => c (fieldX w)) (x : Reg) :
    decodeWord (encodeXNN f x nn) = some (c x) := by
  simp only [h _ (encodeXNN_maskX f x nn), fieldX_encodeXNN]

/-- Format `XY`: the lowest four bits are the function code. -/
theorem decodeWord_encodeXY (f n : BitVec 4) (c : Reg → Reg → Instr)
    (h : Encoded (encodeXYN f 0 0 n) 0xF00F fun w => c (fieldX w) (fieldY w)) (x y : Reg) :
    decodeWord (encodeXYN f x y n) = some (c x y) := by
  simp only [h _ (encodeXYN_maskXY f x y n), fieldX_encodeXYN, fieldY_encodeXYN]

theorem decodeWord_encodeXYN (f : BitVec 4) (c : Reg → Reg → BitVec 4 → Instr)
    (h : Encoded (encodeXYN f 0 0 0) 0xF000 fun w => c (fieldX w) (fieldY w) (fieldN w)) (x y : Reg) (n : BitVec 4) :
    decodeWord (encodeXYN f x y n) = some (c x y n) := by
  simp only [h _ (encodeXYN_mask f x y n), fieldX_encodeXYN, fieldY_encodeXYN, fieldN_encodeXYN]

/-- The row at a place in the table, seen from outside. -/
theorem encoded_row (k : Nat) (hk : k < opcodeTable.length := by decide) :
    Encoded opcodeTable[k].code opcodeTable[k].mask opcodeTable[k].build :=
  encoded_of_row (List.getElem_mem hk)

/-- Each instruction is decoded by the row of its mnemonic. -/
theorem decodeWord_encode (i : Instr) : decodeWord (encode i) = some i := by
  cases i with
  | cls => exact (encoded_row 0) _ rfl
  | ret => exact (encoded_row 1) _ rfl
  | jp nnn => exact decodeWord_encodeNNN 0x1 .jp (encoded_row 2) nnn
  | call nnn => exact decodeWord_encodeNNN 0x2 .call (encoded_row 3) nnn
  | seVxNn x nn => exact decodeWord_encodeXNN 0x3 .seVxNn (encoded_row 4) x nn
  | sneVxNn x nn => exact decodeWord_encodeXNN 0x4 .sneVxNn (encoded_row 5) x nn
  | seVxVy x y => exact decodeWord_encodeXY 0x5 0x0 .seVxVy (encoded_row 6) x y
  | ldVxNn x nn => exact decodeWord_encodeXNN 0x6 .ldVxNn (encoded_row 7) x nn
  | addVxNn x nn => exact decodeWord_encodeXNN 0x7 .addVxNn (encoded_row 8) x nn
  | ldVxVy x y => exact decodeWord_encodeXY 0x8 0x0 .ldVxVy (encoded_row 9) x y
  | or x y => exact decodeWord_encodeXY 0x8 0x1 .or (encoded_row 10) x y
  | and x y => exact decodeWord_encodeXY 0x8 0x2 .and (encoded_row 11) x y
  | xor x y => exact decodeWord_encodeXY 0x8 0x3 .xor (encoded_row 12) x y
  | addVxVy x y => exact decodeWord_encodeXY 0x8 0x4 .addVxVy (encoded_row 13) x y
  | sub x y => exact decodeWord_encodeXY 0x8 0x5 .sub (encoded_row 14) x y
  | shr x y => exact decodeWord_encodeXY 0x8 0x6 .shr (encoded_row 15) x y
  | subn x y => exact decodeWord_encodeXY 0x8 0x7 .subn (encoded_row 16) x y
  | shl x y => exact decodeWord_encodeXY 0x8 0xE .shl (encoded_row 17) x y
  | sneVxVy x y => exact decodeWord_encodeXY 0x9 0x0 .sneVxVy (encoded_row 18) x y
  | ldINnn nnn => exact decodeWord_encodeNNN 0xA .ldINnn (encoded_row 19) nnn
  | jpV0Nnn nnn => exact decodeWord_encodeNNN 0xB .jpV0Nnn (encoded_row 20) nnn
  | rnd x nn => exact decodeWord_encodeXNN 0xC .rnd (encoded_row 21) x nn
  | drw x y n => exact decodeWord_encodeXYN 0xD .drw (encoded_row 22) x y n
  | skp x => exact decodeWord_encodeX 0xE 0x9E .skp (encoded_row 23) x
  | sknp x => exact decodeWord_encodeX 0xE 0xA1 .sknp (encoded_row 24) x
  | ldVxDt x => exact decodeWord_encodeX 0xF 0x07 .ldVxDt (encoded_row 25) x
  | ldVxK x => exact decodeWord_encodeX 0xF 0x0A .ldVxK (encoded_row 26) x
  | ldDtVx x => exact decodeWord_encodeX 0xF 0x15 .ldDtVx (encoded_row 27) x
  | ldStVx x => exact decodeWord_encodeX 0xF 0x18 .ldStVx (encoded_row 28) x
  | addIVx x => exact decodeWord_encodeX 0xF 0x1E .addIVx (encoded_row 29) x
  | ldFVx x => exact decodeWord_encodeX 0xF 0x29 .ldFVx (encoded_row 30) x
  | ldBVx x => exact decodeWord_encodeX 0xF 0x33 .ldBVx (encoded_row 31) x
  | ldMemVx x => exact decodeWord_encodeX 0xF 0x55 .ldMemVx (encoded_row 32) x
  | ldVxMem x => exact decodeWord_encodeX 0xF 0x65 .ldVxMem (encoded_row 33) x

/-- Settles O1: the word decodes by its row, and its two bytes are that word. -/
theorem decodeOfEncode : Obligations.DecodeOfEncode := by
  refine fun i => ⟨decodeWord_encode i, fun rest => ?bytes⟩
  case bytes =>
    show decodeBytes (highByte (encode i) :: lowByte (encode i) :: rest) = .ok (i, rest)
    simp only [decodeBytes, wordOfBytes_high_low, decodeWord_encode]

/-! ### A word that matches a row is the encoding of its fields -/

/-- The row builds from each word it matches an instruction whose encoding is that word. -/
def OpcodeRow.Exact (r : OpcodeRow) : Prop := ∀ w, r.Matches w → encode (r.build w) = w

theorem encodeNNN_of_family {w : Word} {f : BitVec 4} (h : w &&& 0xF000 = encodeNNN f 0) :
    encodeNNN f (fieldNNN w) = w := by
  rw [← (matches_family w f).1 h, encodeNNN_fields]

theorem encodeXNN_of_family {w : Word} {f : BitVec 4} (h : w &&& 0xF000 = encodeNNN f 0) :
    encodeXNN f (fieldX w) (fieldNN w) = w := by
  rw [← (matches_family w f).1 h, encodeXNN_fields]

theorem encodeXYN_of_family {w : Word} {f : BitVec 4} (h : w &&& 0xF000 = encodeNNN f 0) :
    encodeXYN f (fieldX w) (fieldY w) (fieldN w) = w := by
  rw [← (matches_family w f).1 h, encodeXYN_fields]

theorem encodeXNN_of_family_low {w : Word} {f : BitVec 4} {nn : Byte} (h : w &&& 0xF0FF = encodeXNN f 0 nn) :
    encodeXNN f (fieldX w) nn = w := by
  obtain ⟨hf, hnn⟩ := (matches_family_low w f nn).1 h
  rw [← hf, ← hnn, encodeXNN_fields]

theorem encodeXYN_of_family_n {w : Word} {f n : BitVec 4} (h : w &&& 0xF00F = encodeXYN f 0 0 n) :
    encodeXYN f (fieldX w) (fieldY w) n = w := by
  obtain ⟨hf, hn⟩ := (matches_family_n w f n).1 h
  rw [← hf, ← hn, encodeXYN_fields]

/-- A row whose mask keeps the whole word. -/
theorem eq_of_and_ones {w c : Word} (h : w &&& 0xFFFF = c) : c = w :=
  h.symm.trans BitVec.and_allOnes

theorem opcodeRows0to7_exact : ∀ r ∈ opcodeRows0to7, r.Exact := by
  simp only [opcodeRows0to7, List.forall_mem_cons]
  exact ⟨fun _ => eq_of_and_ones, fun _ => eq_of_and_ones, fun _ => encodeNNN_of_family (f := 0x1),
    fun _ => encodeNNN_of_family (f := 0x2), fun _ => encodeXNN_of_family (f := 0x3), fun _ => encodeXNN_of_family (f := 0x4),
    fun _ => encodeXYN_of_family_n (f := 0x5) (n := 0x0), fun _ => encodeXNN_of_family (f := 0x6),
    fun _ => encodeXNN_of_family (f := 0x7), List.forall_mem_nil _⟩

theorem opcodeRows8_exact : ∀ r ∈ opcodeRows8, r.Exact := by
  simp only [opcodeRows8, List.forall_mem_cons]
  exact ⟨fun _ => encodeXYN_of_family_n (f := 0x8) (n := 0x0), fun _ => encodeXYN_of_family_n (f := 0x8) (n := 0x1),
    fun _ => encodeXYN_of_family_n (f := 0x8) (n := 0x2), fun _ => encodeXYN_of_family_n (f := 0x8) (n := 0x3),
    fun _ => encodeXYN_of_family_n (f := 0x8) (n := 0x4), fun _ => encodeXYN_of_family_n (f := 0x8) (n := 0x5),
    fun _ => encodeXYN_of_family_n (f := 0x8) (n := 0x6), fun _ => encodeXYN_of_family_n (f := 0x8) (n := 0x7),
    fun _ => encodeXYN_of_family_n (f := 0x8) (n := 0xE), List.forall_mem_nil _⟩

theorem opcodeRows9toE_exact : ∀ r ∈ opcodeRows9toE, r.Exact := by
  simp only [opcodeRows9toE, List.forall_mem_cons]
  exact ⟨fun _ => encodeXYN_of_family_n (f := 0x9) (n := 0x0), fun _ => encodeNNN_of_family (f := 0xA),
    fun _ => encodeNNN_of_family (f := 0xB), fun _ => encodeXNN_of_family (f := 0xC), fun _ => encodeXYN_of_family (f := 0xD),
    fun _ => encodeXNN_of_family_low (f := 0xE) (nn := 0x9E), fun _ => encodeXNN_of_family_low (f := 0xE) (nn := 0xA1),
    List.forall_mem_nil _⟩

theorem opcodeRowsF_exact : ∀ r ∈ opcodeRowsF, r.Exact := by
  simp only [opcodeRowsF, List.forall_mem_cons]
  exact ⟨fun _ => encodeXNN_of_family_low (f := 0xF) (nn := 0x07), fun _ => encodeXNN_of_family_low (f := 0xF) (nn := 0x0A),
    fun _ => encodeXNN_of_family_low (f := 0xF) (nn := 0x15), fun _ => encodeXNN_of_family_low (f := 0xF) (nn := 0x18),
    fun _ => encodeXNN_of_family_low (f := 0xF) (nn := 0x1E), fun _ => encodeXNN_of_family_low (f := 0xF) (nn := 0x29),
    fun _ => encodeXNN_of_family_low (f := 0xF) (nn := 0x33), fun _ => encodeXNN_of_family_low (f := 0xF) (nn := 0x55),
    fun _ => encodeXNN_of_family_low (f := 0xF) (nn := 0x65), List.forall_mem_nil _⟩

theorem opcodeTable_exact : ∀ r ∈ opcodeTable, r.Exact := by
  simp only [opcodeTable, List.forall_mem_append]
  exact ⟨⟨⟨opcodeRows0to7_exact, opcodeRows8_exact⟩, opcodeRows9toE_exact⟩, opcodeRowsF_exact⟩

/-- Settles O2: the row that decoded the word is exact. -/
theorem encodeOfDecode : Obligations.EncodeOfDecode := by
  intro w i h
  obtain ⟨r, hr, hw, rfl⟩ := row_of_decodeWord h
  exact opcodeTable_exact r hr w hw

/-! ### Which words are recognised (R76, R77) -/

theorem decodeWord_isSome {w : Word} : (decodeWord w).isSome = true ↔ ∃ r ∈ opcodeTable, r.Matches w := by
  simp [decodeWord]

/-- The spec's rows are the decoder's, in the same order. -/
theorem specRows_eq : specRows = opcodeTable.map fun r => (r.mask, r.code) := rfl

/-- No word matches two rows of the map. -/
theorem opcodeTable_unique {w : Word} {r q : OpcodeRow} (hr : r ∈ opcodeTable) (hq : q ∈ opcodeTable) (hrw : r.Matches w)
    (hqw : q.Matches w) : r = q := by
  by_contra hne
  have hdisj : r.Disjoint q :=
    haveI : Std.Symm OpcodeRow.Disjoint := ⟨fun _ _ => OpcodeRow.Disjoint.symm⟩
    opcodeTable_disjoint.forall hr hq hne
  exact hdisj.not_matches hrw hqw

theorem exists_specRow {w : Word} :
    (∃ p ∈ specRows, w &&& p.1 = p.2) ↔ ∃ r ∈ opcodeTable, r.Matches w := by
  rw [specRows_eq]
  simp

/-- Settles O3: the spec's rows are those of the map, and no word matches two of them. -/
theorem recognisedWordsMatchOneRow : Obligations.RecognisedWordsMatchOneRow := by
  refine fun w => ⟨decodeWord_isSome.trans exists_specRow.symm, ?unique⟩
  case unique =>
    simp only [specRows_eq, List.forall_mem_map]
    intro r hr q hq hrw hqw
    rw [opcodeTable_unique hr hq hrw hqw]

/-! ### The recognised words, by the family and the low bits they fix (spec/30_encoding.md section 4) -/

theorem and_family_eq {w c : Word} (hc : c &&& 0xF000 = c) : w &&& 0xF000 = c ↔ family w = family c := by
  have h : c = encodeNNN (family c) 0 := hc.symm.trans ((matches_family c _).2 rfl)
  conv_lhs => rw [h, matches_family]

theorem and_family_n_eq {w c : Word} (hc : c &&& 0xF00F = c) :
    w &&& 0xF00F = c ↔ family w = family c ∧ fieldN w = fieldN c := by
  have h : c = encodeXYN (family c) 0 0 (fieldN c) := hc.symm.trans ((matches_family_n c _ _).2 ⟨rfl, rfl⟩)
  conv_lhs => rw [h, matches_family_n]

theorem and_family_low_eq {w c : Word} (hc : c &&& 0xF0FF = c) :
    w &&& 0xF0FF = c ↔ family w = family c ∧ fieldNN w = fieldNN c := by
  have h : c = encodeXNN (family c) 0 (fieldNN c) := hc.symm.trans ((matches_family_low c _ _).2 ⟨rfl, rfl⟩)
  conv_lhs => rw [h, matches_family_low]

theorem and_ones_eq {w c : Word} : w &&& 0xFFFF = c ↔ w = c := by
  rw [show w &&& 0xFFFF = w from BitVec.and_allOnes]

theorem matches_opcodeRows0to7 {w : Word} : (∃ r ∈ opcodeRows0to7, r.Matches w) ↔
    w = 0x00E0 ∨ w = 0x00EE ∨ family w = 0x1 ∨ family w = 0x2 ∨ family w = 0x3 ∨ family w = 0x4 ∨
      (family w = 0x5 ∧ fieldN w = 0) ∨ family w = 0x6 ∨ family w = 0x7 := by
  simp (disch := decide) only [opcodeRows0to7, List.exists_mem_cons_iff, List.not_mem_nil, false_and, exists_false, or_false,
    OpcodeRow.Matches, and_ones_eq, and_family_eq, and_family_n_eq]
  rfl

theorem matches_opcodeRows8 {w : Word} : (∃ r ∈ opcodeRows8, r.Matches w) ↔
    family w = 0x8 ∧ fieldN w ∉ [0x8#4, 0x9#4, 0xA#4, 0xB#4, 0xC#4, 0xD#4, 0xF#4] := by
  have hn : ∀ n : BitVec 4, n = 0x0 ∨ n = 0x1 ∨ n = 0x2 ∨ n = 0x3 ∨ n = 0x4 ∨ n = 0x5 ∨ n = 0x6 ∨ n = 0x7 ∨ n = 0xE ↔
      n ∉ [0x8#4, 0x9#4, 0xA#4, 0xB#4, 0xC#4, 0xD#4, 0xF#4] := by decide
  simp (disch := decide) only [opcodeRows8, List.exists_mem_cons_iff, List.not_mem_nil, false_and, exists_false, or_false,
    OpcodeRow.Matches, and_family_n_eq, ← hn, and_or_left]
  rfl

theorem matches_opcodeRows9toE {w : Word} : (∃ r ∈ opcodeRows9toE, r.Matches w) ↔
    (family w = 0x9 ∧ fieldN w = 0) ∨ family w = 0xA ∨ family w = 0xB ∨ family w = 0xC ∨ family w = 0xD ∨
      (family w = 0xE ∧ fieldNN w ∈ [0x9E#8, 0xA1#8]) := by
  simp only [opcodeRows9toE, List.exists_mem_cons_iff, List.not_mem_nil, false_and, exists_false, or_false]
  simp (disch := decide) only [OpcodeRow.Matches, and_family_eq, and_family_n_eq, and_family_low_eq, List.mem_cons,
    List.not_mem_nil, or_false, and_or_left]
  rfl

theorem matches_opcodeRowsF {w : Word} : (∃ r ∈ opcodeRowsF, r.Matches w) ↔
    family w = 0xF ∧ fieldNN w ∈ [0x07#8, 0x0A#8, 0x15#8, 0x18#8, 0x1E#8, 0x29#8, 0x33#8, 0x55#8, 0x65#8] := by
  simp only [opcodeRowsF, List.exists_mem_cons_iff, List.not_mem_nil, false_and, exists_false, or_false]
  simp (disch := decide) only [OpcodeRow.Matches, and_family_low_eq, List.mem_cons, List.not_mem_nil, or_false, and_or_left]
  rfl

theorem decodeWord_eq_none_groups {w : Word} : decodeWord w = none ↔
    ¬((∃ r ∈ opcodeRows0to7, r.Matches w) ∨ (∃ r ∈ opcodeRows8, r.Matches w) ∨ (∃ r ∈ opcodeRows9toE, r.Matches w) ∨
      ∃ r ∈ opcodeRowsF, r.Matches w) := by
  simp only [decodeWord_eq_none, opcodeTable, List.forall_mem_append, not_or, not_exists, not_and, and_assoc]

theorem family_cases : ∀ f : BitVec 4, f = 0x0 ∨ f = 0x1 ∨ f = 0x2 ∨ f = 0x3 ∨ f = 0x4 ∨ f = 0x5 ∨ f = 0x6 ∨ f = 0x7 ∨
    f = 0x8 ∨ f = 0x9 ∨ f = 0xA ∨ f = 0xB ∨ f = 0xC ∨ f = 0xD ∨ f = 0xE ∨ f = 0xF := by decide

/-- Settles O4: in each of the sixteen families the recognised words are those of the rows of that family. -/
theorem unrecognisedWordsByFamily : Obligations.UnrecognisedWordsByFamily := by
  intro w
  have hcls : w = 0x00E0 → family w = 0x0 := by rintro rfl; rfl
  have hret : w = 0x00EE → family w = 0x0 := by rintro rfl; rfl
  rw [decodeWord_eq_none_groups, matches_opcodeRows0to7, matches_opcodeRows8, matches_opcodeRows9toE, matches_opcodeRowsF,
    show w.extractLsb' 12 4 = family w from rfl]
  generalize (fieldN w ∈ [0x8#4, 0x9#4, 0xA#4, 0xB#4, 0xC#4, 0xD#4, 0xF#4]) = unlisted8
  generalize family w = f at *
  rcases family_cases f with rfl | rfl | rfl | rfl | rfl | rfl | rfl | rfl | rfl | rfl | rfl | rfl | rfl | rfl | rfl | rfl <;>
    simp_all

/-- Settles O5: each word is looked up in the map. -/
theorem exampleWordsDecode : Obligations.ExampleWordsDecode := by
  unfold Obligations.ExampleWordsDecode
  decide

end Sys2Proof
end

section
/-! Calls and returns (spec/40_control_flow.md, R100, R102): the push and the pop decide what each of the two does. -/

namespace Sys2Proof.Machine

/-! ### Frames: what depends on one field alone is as before when that field is -/

theorem sameRegsBut_of_v {s t : State} (h : t.v = s.v) (ws : List Reg) : SameRegsBut ws s t := fun r _ => by
  rw [State.getV, State.getV, h]

theorem sameMemory_of_mem {s t : State} (h : t.mem = s.mem) : SameMemory s t := fun a => by
  rw [State.memRead, State.memRead, h]

/-! ### What the two instructions do -/

theorem exec_ret_pop {s : State} (h : s.sp.val ≠ 0) : ∃ t, exec .ret s = .next t ∧ t.pc = s.slot (s.sp.val - 1) ∧
    t.sp.val + 1 = s.sp.val ∧ t = { s with pc := t.pc, sp := t.sp } := by
  obtain ⟨u, hpop, hrest, hsp⟩ := s.pop_ok h
  refine ⟨u.setPc (s.slot (s.sp.val - 1)), ?next, rfl, hsp, ?rest⟩
  case next => simp [exec, execRet, hpop]
  case rest =>
    rw [hrest]
    rfl

theorem exec_ret_empty {s : State} (h : s.sp.val = 0) : exec .ret s = .next (s.raiseFatal (.stackUnderflow s.instrPc)) := by
  simp [exec, execRet, s.pop_empty h]

theorem exec_call (nnn : BitVec 12) (s : State) : exec (.call nnn) s = .next (callWith stackCapacity nnn s) := rfl

/-- A call with room, at any capacity the state has slots for. -/
theorem callWith_pushes {c : Nat} (nnn : BitVec 12) {s : State} (h : s.sp.val < c) (hc : c ≤ Config.stackSlots) :
    (callWith c nnn s).pc.toNat = nnn.toNat ∧ (callWith c nnn s).slot s.sp.val = s.pc ∧
      (callWith c nnn s).sp.val = s.sp.val + 1 ∧ (∀ k, k ≠ s.sp.val → (callWith c nnn s).slot k = s.slot k) ∧
      callWith c nnn s = { s with
        pc := (callWith c nnn s).pc, stack := (callWith c nnn s).stack, sp := (callWith c nnn s).sp } := by
  obtain ⟨hrest, hsp, hslot, hother⟩ := callWith_room nnn s h hc
  have hpc : (callWith c nnn s).pc = addrOperand nnn := by rw [hrest]
  exact ⟨by rw [hpc, addrOperand_toNat], hslot, hsp, hother, by rw [hpc]; exact hrest⟩

theorem stackCapacity_le_stackSlots : stackCapacity ≤ Config.stackSlots := by decide

/-! ### The obligations -/

/-- Settles O21: RET by the two cases of the pop. -/
theorem returnPopsPc : Obligations.ReturnPopsPc := by
  refine ⟨encoded_row 1, fun s h => ?pop, fun s h => exec_ret_empty h⟩
  case pop =>
    obtain ⟨t, hexec, hpc, hsp, hrest⟩ := exec_ret_pop h
    have hv : t.v = s.v := by rw [hrest]
    have hmem : t.mem = s.mem := by rw [hrest]
    exact ⟨t, hexec, hpc, hsp, sameRegsBut_of_v hv [], sameMemory_of_mem hmem, hrest⟩

/-- Settles O23: CALL below the capacity. -/
theorem callPushesReturnAddress : Obligations.CallPushesReturnAddress := by
  refine ⟨encoded_row 3, fun nnn s h => ⟨_, exec_call nnn s, ?_⟩⟩
  obtain ⟨hpc, hslot, hsp, hother, hrest⟩ := callWith_pushes (c := stackCapacity) nnn h stackCapacity_le_stackSlots
  have hv : (callWith stackCapacity nnn s).v = s.v := by rw [hrest]
  have hmem : (callWith stackCapacity nnn s).mem = s.mem := by rw [hrest]
  exact ⟨hpc, hslot, hsp, hother, sameRegsBut_of_v hv [], sameMemory_of_mem hmem, hrest⟩

/-- Settles O24: CALL at the capacity or above it. -/
theorem callOnFullStackFaults : Obligations.CallOnFullStackFaults := fun nnn s h =>
  (exec_call nnn s).trans (congrArg _ (callWith_full nnn s h))

/-- Settles O25: the slot the return reads is the one the call wrote. -/
theorem callThenReturnRestoresPc : Obligations.CallThenReturnRestoresPc := by
  intro nnn s t u hroom hcall hstack hsp
  obtain rfl : callWith stackCapacity nnn s = t := Host.Outcome.next.inj hcall
  obtain ⟨-, hslot, hdepth, -, -⟩ := callWith_pushes (c := stackCapacity) nnn hroom stackCapacity_le_stackSlots
  have hdepth' : u.sp.val = s.sp.val + 1 := by rw [hsp, hdepth]
  obtain ⟨v, hret, hpc, hpop, -⟩ := exec_ret_pop (s := u) (by omega)
  refine ⟨v, hret, ?pc, Fin.ext (by omega)⟩
  case pc =>
    have hread : u.slot s.sp.val = (callWith stackCapacity nnn s).slot s.sp.val := by rw [State.slot, State.slot, hstack]
    rw [hpc, hdepth', Nat.add_sub_cancel, hread, hslot]

end Sys2Proof.Machine
end

section
/-! The instructions of spec/41_alu.md that write a flag, the random byte, the instructions that write I
(spec/42_index_memory.md) and the key skips (spec/44_keypad_timers.md), by one equation per instruction. -/

namespace Sys2Proof.Machine

/-! ### Result, then flag (R121): the flag stays with x = F -/

theorem exists_next_resultThenFlag {i : Instr} {s : State} {x : Reg} {res flag : Byte}
    (h : exec i s = .next (s.setResultThenFlag x res flag)) :
    ∃ t, exec i s = .next t ∧ (x ≠ VF → t.getV x = res) ∧ t.getV VF = flag ∧ OnlyRegs [x, VF] s t :=
  ⟨_, h, fun hx => getV_setShifted_result s (o := .resultThenFlag) (.inl hx) res flag,
    getV_setShifted_flag s (o := .resultThenFlag) (.inr rfl) res flag, onlyRegs_setShifted s .resultThenFlag x res flag⟩

theorem toNat_sub_byte (a b : Byte) : ((a - b).toNat : Int) = ((a.toNat : Int) - b.toNat) % 256 := by
  have ha := a.isLt
  have hb := b.isLt
  rw [BitVec.toNat_sub]
  omega

theorem exec_addVxVy (x y : Reg) (s : State) : exec (.addVxVy x y) s =
    .next (s.setResultThenFlag x (s.getV x + s.getV y) (carryFlag (s.getV x) (s.getV y))) := rfl

theorem exec_sub (x y : Reg) (s : State) : exec (.sub x y) s =
    .next (s.setResultThenFlag x (s.getV x - s.getV y) (noBorrowFlag (s.getV x) (s.getV y))) := rfl

theorem exec_subn (x y : Reg) (s : State) : exec (.subn x y) s =
    .next (s.setResultThenFlag x (s.getV y - s.getV x) (noBorrowFlag (s.getV y) (s.getV x))) := rfl

/-- Settles O29: the sum of two bytes modulo 256, then its carry. -/
theorem addWithCarry : Obligations.AddWithCarry := by
  refine ⟨encoded_row 13, fun x y s => ?_⟩
  obtain ⟨t, hexec, hres, hflag, hframe⟩ := exists_next_resultThenFlag (exec_addVxVy x y s)
  exact ⟨t, hexec, fun hx => by rw [hres hx, BitVec.toNat_add], by rw [hflag, carryFlag_eq], hframe⟩

/-- Settles O30: the difference of two bytes modulo 256, then its borrow negated. -/
theorem subtractWithNotBorrow : Obligations.SubtractWithNotBorrow := by
  refine ⟨encoded_row 14, encoded_row 16, fun x y s => ?sub, fun x y s => ?subn⟩
  case sub =>
    obtain ⟨t, hexec, hres, hflag, hframe⟩ := exists_next_resultThenFlag (exec_sub x y s)
    exact ⟨t, hexec, fun hx => by rw [hres hx, toNat_sub_byte], by rw [hflag, noBorrowFlag_eq], hframe⟩
  case subn =>
    obtain ⟨t, hexec, hres, hflag, hframe⟩ := exists_next_resultThenFlag (exec_subn x y s)
    exact ⟨t, hexec, fun hx => by rw [hres hx, toNat_sub_byte], by rw [hflag, noBorrowFlag_eq], hframe⟩

/-- Settles O33: the shifts under any parameters, at the configured ones. -/
theorem shiftsAsConfigured : Obligations.ShiftsAsConfigured := by
  obtain ⟨-, hright⟩ := shiftRightByOne
  obtain ⟨-, hleft⟩ := shiftLeftByOne
  refine fun x y s => ⟨⟨_, exec_shr x y s, ?right⟩, ⟨_, exec_shl x y s, ?left⟩⟩
  case right =>
    obtain ⟨-, hall⟩ := hright x y s
    obtain ⟨hres, hflag, hframe⟩ := hall shiftQuirk shiftXfOrder (s.getV x) rfl
    exact ⟨hres (.inr rfl), fun hx => hflag (.inl hx), hframe⟩
  case left =>
    obtain ⟨-, hall⟩ := hleft x y s
    obtain ⟨hres, hflag, hframe⟩ := hall shiftQuirk shiftXfOrder (s.getV x) rfl
    exact ⟨hres (.inr rfl), fun hx => hflag (.inl hx), hframe⟩

/-! ### The random byte (R133) -/

theorem exec_rnd (x : Reg) (nn : Byte) (s : State) :
    exec (.rnd x nn) s = .next (s.afterDraw.setV x (s.drawnByte &&& nn)) := rfl

theorem State.drawnByte_of_cons {s : State} {b : Byte} {rest : List Byte} (h : s.rndBytes = b :: rest) :
    s.drawnByte = b := by
  rw [State.drawnByte, h]

/-- Settles O34: one draw, and one write of the drawn byte masked. -/
theorem randomByteMasked : Obligations.RandomByteMasked := by
  refine ⟨encoded_row 21, fun x nn s => ⟨_, exec_rnd x nn s, State.getV_setV_self .., fun b rest hb => ⟨?drawn, ?rest⟩,
    ?zero, fun r hr => ?regs, fun a => rfl, rfl⟩⟩
  case drawn => rw [State.getV_setV_self, State.drawnByte_of_cons hb]
  case rest =>
    rw [State.setV_rndBytes, State.afterDraw_rndBytes, hb]
    rfl
  case zero =>
    rintro rfl
    rw [State.getV_setV_self]
    exact BitVec.and_zero
  case regs =>
    have hne : r ≠ x := by simpa using hr
    rw [State.getV_setV_ne _ hne, State.getV_afterDraw]

/-! ### The index register (R150 to R152) -/

theorem exec_ldINnn (nnn : BitVec 12) (s : State) : exec (.ldINnn nnn) s = .next (s.setI (addrOperand nnn)) := rfl

theorem exec_addIVx (x : Reg) (s : State) : exec (.addIVx x) s =
    .next ((s.setV VF (indexFlag (indexSum s x))).setI (BitVec.ofNat 16 (indexSum s x))) := rfl

theorem exec_ldFVx (x : Reg) (s : State) : exec (.ldFVx x) s = .next (s.setI (glyphAddr (s.getV x))) := rfl

/-- The frame of an instruction that writes I alone. -/
theorem setI_changes_only_i (s : State) (a : Word) :
    SameRegsBut [] s (s.setI a) ∧ SameMemory s (s.setI a) ∧ s.setI a = { s with i := (s.setI a).i } :=
  ⟨fun r _ => State.getV_setI s a r, State.memRead_setI s a, rfl⟩

/-- The greatest glyph address is 0x050 + 5 * 0xFF, well inside 16 bits. -/
theorem glyphAddr_toNat (b : Byte) : (glyphAddr b).toNat = 0x050 + 5 * b.toNat := by
  have hb := b.isLt
  rw [glyphAddr, BitVec.toNat_ofNat, fontBase]
  omega

/-- Settles O35: the index sum modulo 65536, its flag taken from the exact sum. -/
theorem indexLoadAndAdd : Obligations.IndexLoadAndAdd := by
  refine ⟨encoded_row 19, encoded_row 29,
    fun nnn s => ⟨_, exec_ldINnn nnn s, addrOperand_toNat nnn, setI_changes_only_i s _⟩,
    fun x s => ⟨_, exec_addIVx x s, BitVec.toNat_ofNat .., ?flag, fun r hr => ?regs, fun a => rfl, rfl⟩⟩
  case flag => rw [State.getV_setI, State.getV_setV_self, indexFlag_eq, indexSum]
  case regs =>
    have hne : r ≠ VF := by simpa using hr
    rw [State.getV_setI, State.getV_setV_ne s hne]

/-! ### The font after construction (spec/20_memory.md section 3) -/

/-- Nothing is listed after construction, so every address reads as its construction byte, else as MEM_INIT. -/
theorem memRead_reset (a : Nat) : State.reset.memRead a = (constructionByte? a).getD (Config.memInit a) := rfl

theorem constructionByte?_font (k : Nat) : constructionByte? (0x050 + k) = font[k]? := by
  rw [constructionByte?, fontBase, if_pos (Nat.le_add_right _ k), Nat.add_sub_cancel_left]

theorem memRead_reset_font {k : Nat} (h : k < 80) : some (State.reset.memRead (0x050 + k)) = font[k]? := by
  have hk : font[k]? = some font[k] := List.getElem?_eq_getElem h
  rw [memRead_reset, constructionByte?_font, hk, Option.getD_some]

/-- Settles O36: the glyph address does not wrap, and the font starts at 0x050. -/
theorem glyphAddress : Obligations.GlyphAddress := by
  refine ⟨encoded_row 30, fun x s => ⟨_, exec_ldFVx x s, glyphAddr_toNat _, setI_changes_only_i s _⟩, fun d k hd hk => ?font⟩
  case font =>
    rw [Nat.add_assoc]
    exact memRead_reset_font (by omega)

/-! ### The key skips (R190, R191, R196) -/

theorem exec_skp (x : Reg) (s : State) : exec (.skp x) s = .next (keySkip x true s) := rfl

theorem exec_sknp (x : Reg) (s : State) : exec (.sknp x) s = .next (keySkip x false s) := rfl

theorem keySkip_inRange {x : Reg} (level : Bool) {s : State} (h : (s.getV x).toNat ≤ 0xF) :
    keySkip x level s = s.setPc (if s.keyPressed (s.getV x).toNat = level then s.pc + 2 else s.pc) := by
  rw [keySkip, if_neg (Nat.not_lt.2 h), State.skipIf_eq]
  simp only [beq_iff_eq]

theorem keySkip_outOfRange {x : Reg} (level : Bool) {s : State} (h : 0xF < (s.getV x).toNat) :
    keySkip x level s = s.raiseFatal (.keyRange s.instrPc (s.getV x)) := if_pos h

/-- Settles O46: the two skips differ in the key level they ask for. -/
theorem keySkips : Obligations.KeySkips := by
  refine ⟨encoded_row 23, encoded_row 24, fun x s h => ⟨?skp, ?sknp⟩,
    fun x s h => ⟨by rw [exec_skp, keySkip_outOfRange true h], by rw [exec_sknp, keySkip_outOfRange false h]⟩⟩
  case skp =>
    have hexec := exec_skp x s
    rw [keySkip_inRange true h] at hexec
    exact exists_next_onlyPc hexec
  case sknp =>
    have hexec := exec_sknp x s
    rw [keySkip_inRange false h] at hexec
    obtain ⟨t, ht, hpc, hframe⟩ := exists_next_onlyPc hexec
    refine ⟨t, ht, hpc.trans ?_, hframe⟩
    cases s.keyPressed (s.getV x).toNat <;> rfl

end Sys2Proof.Machine
end

section
/-! The instructions that access memory at I (spec/42_index_memory.md, R153 to R157): a store inside memory copies its bytes and
a load inside memory reads them; past the end of memory both raise at the first address outside. -/

namespace Sys2Proof.Machine

/-! ### What each instruction does -/

theorem exec_ldBVx (x : Reg) (s : State) :
    exec (.ldBVx x) s = .next (s.storeBytes (indexBase s) (decimalDigits (s.getV x))) := rfl

theorem exec_ldMemVx (x : Reg) (s : State) :
    exec (.ldMemVx x) s = .next (s.storeBytes (indexBase s) (regBytes s x)) := rfl

theorem exec_ldVxMem (x : Reg) (s : State) :
    exec (.ldVxMem x) s = .next (s.loadRegs (indexBase s) (regsUpTo x)) := rfl

/-! ### Inside memory -/

theorem exec_ldBVx_inRange (x : Reg) {s : State} (h : indexBase s ≤ 0xFFD) :
    exec (.ldBVx x) s = .next (s.copyBytes (indexBase s) (decimalDigits (s.getV x))) := by
  have hfits : indexBase s + (decimalDigits (s.getV x)).length ≤ lastAddr + 1 := Nat.add_le_add_right h 3
  rw [exec_ldBVx, State.storeBytes_inRange hfits]

theorem exec_ldMemVx_inRange {x : Reg} {s : State} (h : indexBase s + x.val ≤ 0xFFF) :
    exec (.ldMemVx x) s = .next (s.copyBytes (indexBase s) (regBytes s x)) := by
  have hfits : indexBase s + (regBytes s x).length ≤ lastAddr + 1 := by
    rw [regBytes_length]
    exact Nat.succ_le_succ h
  rw [exec_ldMemVx, State.storeBytes_inRange hfits]

theorem addrs_inRange {x : Reg} {base : Nat} (h : base + x.val ≤ 0xFFF) :
    ∀ k ∈ regsUpTo x, base + k.val ≤ lastAddr := fun k hk =>
  (Nat.add_le_add_left ((mem_regsUpTo x k).1 hk) base).trans h

theorem memRead_copyBytes_regBytes {x k : Reg} (s : State) (a : Nat) (hk : k ≤ x) :
    (s.copyBytes a (regBytes s x)).memRead (a + k.val) = s.getV k := by
  rw [State.memRead_copyBytes, if_pos (Nat.le_add_right a k.val), Nat.add_sub_cancel_left, regBytes_getElem?, if_pos hk,
    Option.getD_some]

/-- A copy leaves the registers, and the rest of the state but memory. -/
theorem copyBytes_frame (s : State) (a : Nat) (bs : List Byte) :
    SameRegsBut [] s (s.copyBytes a bs) ∧ s.copyBytes a bs = { s with mem := (s.copyBytes a bs).mem } := by
  have hrest := State.copyBytes_eq bs s a
  have hv : (s.copyBytes a bs).v = s.v := by rw [hrest]
  exact ⟨sameRegsBut_of_v hv [], hrest⟩

/-- Each digit of a byte is at most 9, so storing it in a byte loses nothing. -/
theorem decimalDigits_toNat (b : Byte) :
    (decimalDigits b).map BitVec.toNat = [b.toNat / 100, b.toNat / 10 % 10, b.toNat % 10] := by
  have hb := b.isLt
  simp only [decimalDigits, List.map_cons, List.map_nil, BitVec.toNat_ofNat, List.cons.injEq, and_true]
  omega

/-- Settles O37: the three digits copied to I, I + 1 and I + 2. -/
theorem decimalDigitsStored : Obligations.DecimalDigitsStored := by
  refine ⟨encoded_row 31, fun x s h => ⟨_, exec_ldBVx_inRange x h, ?_⟩⟩
  have hread (k : Nat) (hk : k < 3) := State.memRead_copyBytes_inside (bs := decimalDigits (s.getV x)) s (a := indexBase s) hk
  have hdigits := decimalDigits_toNat (s.getV x)
  simp only [decimalDigits, List.map_cons, List.map_nil, List.cons.injEq, and_true] at hdigits
  obtain ⟨hundreds, tens, ones⟩ := hdigits
  exact ⟨(congrArg _ (hread 0 (by decide))).trans hundreds, (congrArg _ (hread 1 (by decide))).trans tens,
    (congrArg _ (hread 2 (by decide))).trans ones, sameMemoryOutside_copyBytes s _ _, copyBytes_frame s _ _⟩

/-- Settles O38: the registers V0 to Vx copied to I and up. -/
theorem registersStored : Obligations.RegistersStored := by
  refine ⟨encoded_row 32, fun x s h => ⟨_, exec_ldMemVx_inRange h, fun k hk => memRead_copyBytes_regBytes s _ hk, ?outside,
    copyBytes_frame s _ _⟩⟩
  case outside =>
    rw [← regBytes_length s x]
    exact sameMemoryOutside_copyBytes s _ _

theorem getV_loadRegs_upTo {x k : Reg} {s : State} {base : Nat} (h : base + x.val ≤ 0xFFF) :
    (s.loadRegs base (regsUpTo x)).getV k = if k ≤ x then s.memRead (base + k.val) else s.getV k := by
  simp only [State.getV_loadRegs (addrs_inRange h), mem_regsUpTo]

/-- Settles O39: the registers up to Vx take their bytes, and no fault is added. -/
theorem registersLoaded : Obligations.RegistersLoaded := by
  refine ⟨encoded_row 33, fun x s h => ⟨_, exec_ldVxMem x s, fun k hk => ?loaded, fun k hk => ?kept, ?memory, ?rest⟩⟩
  case loaded => rw [getV_loadRegs_upTo h, if_pos hk]
  case kept => rw [getV_loadRegs_upTo h, if_neg (Fin.not_le.2 hk)]
  case memory => exact sameMemory_of_mem (by rw [State.loadRegs_eq])
  case rest =>
    conv_lhs => rw [State.loadRegs_eq, State.fault_loadRegs (addrs_inRange h)]

/-! ### Past the end of memory -/

theorem storeBytes_fault {bs : List Byte} {s : State} {a : Nat} (hb : bs ≠ []) (h : 0x1000 < a + bs.length) :
    (s.storeBytes a bs).fault = some (.memRange s.instrPc (max a 0x1000)) :=
  State.storeBytes_outOfRange hb h

/-- The registers up to Vx, parted at one of them. -/
theorem regsUpTo_parted : ∀ x k : Reg, k ≤ x →
    regsUpTo x = allRegs.take k.val ++ k :: (regsUpTo x).drop (k.val + 1) ∧ ∀ j ∈ allRegs.take k.val, j < k := by
  decide

/-- The first register whose byte lies outside is the one at 0x1000, or V0 where I itself lies outside. -/
theorem loadRegs_upTo_fault {x : Reg} {s : State} {base : Nat} (h : 0xFFF < base + x.val) :
    (s.loadRegs base (regsUpTo x)).fault = some (.memRange s.instrPc (max base 0x1000)) := by
  have hx := x.isLt
  obtain ⟨k, hk⟩ : ∃ k : Reg, base + k.val = max base 0x1000 := ⟨⟨max base 0x1000 - base, by omega⟩, by simp only; omega⟩
  have hkx : k ≤ x := Fin.le_def.2 (by omega)
  obtain ⟨hparted, hbefore⟩ := regsUpTo_parted x k hkx
  have hinside : ∀ j ∈ allRegs.take k.val, base + j.val ≤ lastAddr := fun j hj => by
    have hjk := Fin.lt_def.1 (hbefore j hj)
    show base + j.val ≤ 0xFFF
    omega
  have houtside : lastAddr < base + k.val := by
    show 0xFFF < base + k.val
    omega
  rw [hparted, State.loadRegs_outOfRange hinside houtside, hk]

/-- Settles O40: the store and the load each name the first address outside. -/
theorem accessPastMemoryFaults : Obligations.AccessPastMemoryFaults := by
  refine ⟨fun x s h => ⟨_, exec_ldBVx x s, ?digits⟩, fun x s h => ⟨_, exec_ldMemVx x s, ?regs⟩,
    fun x s h => ⟨_, exec_ldVxMem x s, loadRegs_upTo_fault h⟩⟩
  case digits => exact storeBytes_fault (List.cons_ne_nil _ _) (Nat.add_lt_add_right h 3)
  case regs =>
    have hlength := regBytes_length s x
    exact storeBytes_fault (List.ne_nil_of_length_eq_add_one hlength) (by omega)

/-! ### What was stored is what is read -/

/-- In a state with the memory that an FX55 left, the bytes it stored are the registers. -/
theorem memRead_after_ldMemVx {x k : Reg} {s t u : State} (h : indexBase s + x.val ≤ 0xFFF)
    (hstore : exec (.ldMemVx x) s = .next t) (hmem : u.mem = t.mem) (hk : k ≤ x) :
    u.memRead (indexBase s + k.val) = s.getV k := by
  obtain rfl : s.copyBytes (indexBase s) (regBytes s x) = t :=
    Host.Outcome.next.inj ((exec_ldMemVx_inRange h).symm.trans hstore)
  rw [sameMemory_of_mem hmem, memRead_copyBytes_regBytes s _ hk]

/-- Settles O41: the load reads the bytes that the store left. -/
theorem storedRegistersReload : Obligations.StoredRegistersReload := by
  intro x s t u h hstore hmem hi
  have hbase : indexBase u = indexBase s := by rw [indexBase, indexBase, hi]
  have hrange : indexBase u + x.val ≤ 0xFFF := by rwa [hbase]
  refine ⟨_, exec_ldVxMem x u, fun k hk => ?loaded, State.fault_loadRegs (addrs_inRange hrange)⟩
  case loaded => rw [getV_loadRegs_upTo hrange, if_pos hk, hbase, memRead_after_ldMemVx h hstore hmem hk]

/-- Settles O55: the fetch reads two bytes that the store left. -/
theorem storedBytesAreFetched : Obligations.StoredBytesAreFetched := by
  intro x j k s t u h hstore hk hjk hmem hpc
  have hkx := Fin.le_def.1 hk
  have hjx : j ≤ x := Fin.le_def.2 (by omega)
  have hnext : u.pc.toNat + 1 = indexBase s + k.val := by omega
  rw [State.fetchWord_ok (by omega), hnext, hpc, memRead_after_ldMemVx h hstore hmem hjx,
    memRead_after_ldMemVx h hstore hmem hk]

end Sys2Proof.Machine
end

section
/-! Drawing (spec/43_display.md, R171 to R175): DXYN raises before any write when a sprite byte lies past memory, and else it
flips the pixels that a lit sprite bit falls on and takes the collision into VF. -/

namespace Sys2Proof.Machine

/-! ### What DXYN does -/

theorem exec_drw_inRange (x y : Reg) {n : BitVec 4} {s : State} (h : n = 0 ∨ indexBase s + n.toNat - 1 ≤ 0xFFF) :
    exec (.drw x y n) s =
      .next ((s.setFb (spriteDrawing s x y n).1).setV VF (flagByte (spriteDrawing s x y n).2)) := by
  have hin : ¬(0 < n.toNat ∧ lastAddr < indexBase s + n.toNat - 1) := by
    rintro ⟨hn, hlast⟩
    rcases h with rfl | h
    · exact absurd hn (by decide)
    · exact Nat.not_lt.2 h hlast
  simp [exec, execDrw, spriteOutOfRange, hin]

theorem exec_drw_outOfRange (x y : Reg) {n : BitVec 4} {s : State} (hn : n ≠ 0) (h : 0xFFF < indexBase s + n.toNat - 1) :
    exec (.drw x y n) s = .next (s.raiseFatal (.memRange s.instrPc (max (indexBase s) 0x1000))) := by
  have hpos : 0 < n.toNat := Nat.pos_of_ne_zero fun h0 => hn (BitVec.eq_of_toNat_eq h0)
  have hout : 0 < n.toNat ∧ lastAddr < indexBase s + n.toNat - 1 := ⟨hpos, h⟩
  simp [exec, execDrw, spriteOutOfRange, hout]

/-- Either the whole sprite lies inside memory or DXYN raises. -/
theorem sprite_inRange_or (n : BitVec 4) (s : State) :
    (n = 0 ∨ indexBase s + n.toNat - 1 ≤ 0xFFF) ∨ (n ≠ 0 ∧ 0xFFF < indexBase s + n.toNat - 1) := by
  by_cases hn : n = 0
  · exact .inl (.inl hn)
  · by_cases h : indexBase s + n.toNat - 1 ≤ 0xFFF
    · exact .inl (.inr h)
    · exact .inr ⟨hn, Nat.lt_of_not_le h⟩

/-! ### The pixels and the collision -/

theorem pixel_spriteDrawing (s : State) (x y : Reg) (n : BitVec 4) (r c : Nat) :
    (spriteDrawing s x y n).1.pixel r c =
      (s.fb.pixel r c ^^ spriteLit (spriteCol s x) (spriteRow s y) (spriteBytes s n) r c) :=
  pixel_drawRows _ _ _ _ r c

theorem pixel_spriteDrawing_flipped (s : State) (x y : Reg) (n : BitVec 4) (r c : Nat) :
    (spriteDrawing s x y n).1.pixel r c ≠ s.fb.pixel r c ↔ s.drawsOn x y n r c := by
  have hxor : ∀ a b : Bool, (a ^^ b) ≠ a ↔ b = true := by decide
  rw [← spriteLit_iff_drawsOn, pixel_spriteDrawing, hxor]

theorem hit_spriteDrawing (s : State) (x y : Reg) (n : BitVec 4) :
    (spriteDrawing s x y n).2 = true ↔ ∃ r c, s.drawsOn x y n r c ∧ s.fb.pixel r c = true := by
  simp [spriteDrawing, hit_drawRows, spriteLit_iff_drawsOn]

theorem flagByte_cases {b : Bool} {P : Prop} (h : b = true ↔ P) : flagByte b = 1 ∧ P ∨ flagByte b = 0 ∧ ¬P := by
  cases b with
  | true => exact .inl ⟨rfl, h.1 rfl⟩
  | false => exact .inr ⟨rfl, fun hP => Bool.false_ne_true (h.2 hP)⟩

/-- Settles O43: the drawing on the framebuffer, then its collision in VF. -/
theorem drawFlipsSpritePixels : Obligations.DrawFlipsSpritePixels := by
  refine ⟨encoded_row 22, fun x y n s h => ⟨_, exec_drw_inRange x y h,
    fun r c _ _ => pixel_spriteDrawing_flipped s x y n r c, ?collision, fun r hr => ?regs, fun a => rfl, rfl⟩⟩
  case collision =>
    rw [State.getV_setV_self]
    exact flagByte_cases (hit_spriteDrawing s x y n)
  case regs =>
    have hne : r ≠ VF := by simpa using hr
    rw [State.getV_setV_ne _ hne, State.getV_setFb]

/-- Settles O44: the check of the sprite's last byte comes before any write. -/
theorem spritePastMemoryFaults : Obligations.SpritePastMemoryFaults := fun x y _ _ hn h => exec_drw_outOfRange x y hn h

/-! ### Drawing the same sprite twice -/

/-- The sprite that a state draws is given by memory, I and the two origin registers. -/
theorem drawsOn_congr {s u : State} {x y : Reg} (n : BitVec 4) (hmem : u.mem = s.mem) (hi : u.i = s.i)
    (hx : u.getV x = s.getV x) (hy : u.getV y = s.getV y) (r c : Nat) : u.drawsOn x y n r c ↔ s.drawsOn x y n r c := by
  simp only [State.drawsOn, hi, hx, hy, sameMemory_of_mem hmem _]

/-- What the drawing does to a pixel, as an equation. -/
theorem pixel_spriteDrawing_not {s : State} {x y : Reg} {n : BitVec 4} {r c : Nat} (h : s.drawsOn x y n r c) :
    (spriteDrawing s x y n).1.pixel r c = !s.fb.pixel r c :=
  Bool.eq_not.2 ((pixel_spriteDrawing_flipped s x y n r c).2 h)

theorem pixel_spriteDrawing_same {s : State} {x y : Reg} {n : BitVec 4} {r c : Nat} (h : ¬s.drawsOn x y n r c) :
    (spriteDrawing s x y n).1.pixel r c = s.fb.pixel r c :=
  not_ne_iff.1 fun hne => h ((pixel_spriteDrawing_flipped s x y n r c).1 hne)

/-- Settles O45: the second drawing flips back the pixels the first one flipped, and it meets a lit pixel where the first one
met an unlit one. -/
theorem drawTwiceRestoresFrame : Obligations.DrawTwiceRestoresFrame := by
  intro x y n s t u hrange hfirst hfb hmem hi hx hy
  obtain rfl := Host.Outcome.next.inj ((exec_drw_inRange x y hrange).symm.trans hfirst)
  replace hfb : u.fb = (spriteDrawing s x y n).1 := hfb
  have hdraws (r c : Nat) := drawsOn_congr n hmem hi hx hy r c
  have hbase : indexBase u = indexBase s := by rw [indexBase, indexBase, hi]
  have hrange' : n = 0 ∨ indexBase u + n.toNat - 1 ≤ 0xFFF := by rwa [hbase]
  refine ⟨_, exec_drw_inRange x y hrange', ?frame, ?collision⟩
  case frame =>
    refine Frame.ext_pixel fun r c _ _ => ?_
    show (spriteDrawing u x y n).1.pixel r c = s.fb.pixel r c
    by_cases h : s.drawsOn x y n r c
    · rw [pixel_spriteDrawing_not ((hdraws r c).2 h), hfb, pixel_spriteDrawing_not h, Bool.not_not]
    · rw [pixel_spriteDrawing_same (mt (hdraws r c).1 h), hfb, pixel_spriteDrawing_same h]
  case collision =>
    rw [State.getV_setV_self]
    refine flagByte_cases ((hit_spriteDrawing u x y n).trans ?_)
    refine exists₂_congr fun r c => ?_
    rw [hdraws r c]
    refine and_congr_right fun h => ?_
    rw [hfb, pixel_spriteDrawing_not h, Bool.not_eq_true']

/-! ### Every flag is a bit (spec/10_state.md R23) -/

theorem flagByte_zero_or_one (b : Bool) : flagByte b = 0 ∨ flagByte b = 1 := by cases b <;> decide

/-- An instruction whose last write is a flag leaves 0 or 1 in VF. -/
theorem flag_of_lastWrite {i : Instr} {s t u : State} {b : Bool} (hexec : exec i s = .next (u.setV VF (flagByte b)))
    (h : exec i s = .next t) : t.getV VF = 0 ∨ t.getV VF = 1 := by
  obtain rfl := Host.Outcome.next.inj (hexec.symm.trans h)
  rw [State.getV_setV_self]
  exact flagByte_zero_or_one b

theorem flag_of_addIVx {x : Reg} {s t : State} (h : exec (.addIVx x) s = .next t) : t.getV VF = 0 ∨ t.getV VF = 1 := by
  obtain rfl := Host.Outcome.next.inj ((exec_addIVx x s).symm.trans h)
  rw [State.getV_setI, State.getV_setV_self]
  exact flagByte_zero_or_one _

theorem flag_of_drw {x y : Reg} {n : BitVec 4} {s t : State} (hsafe : t.fault = none)
    (h : exec (.drw x y n) s = .next t) : t.getV VF = 0 ∨ t.getV VF = 1 := by
  rcases sprite_inRange_or n s with hin | ⟨hn, hout⟩
  · exact flag_of_lastWrite (exec_drw_inRange x y hin) h
  · obtain rfl := Host.Outcome.next.inj ((exec_drw_outOfRange x y hn hout).symm.trans h)
    exact absurd hsafe (Option.some_ne_none _)

/-- A shift whose destination is not VF, under either order. -/
theorem flag_of_setShifted {i : Instr} {s t u : State} {o : ShiftXfOrder} {x : Reg} {res : Byte} {b : Bool} (hx : x ≠ VF)
    (hexec : exec i s = .next (u.setShifted o x res (flagByte b))) (h : exec i s = .next t) :
    t.getV VF = 0 ∨ t.getV VF = 1 := by
  obtain rfl := Host.Outcome.next.inj (hexec.symm.trans h)
  rw [getV_setShifted_flag u (.inl hx)]
  exact flagByte_zero_or_one b

/-- Settles O56: each of the seven ends with a flag in VF, the shifts because their destination is not VF. -/
theorem flagIsZeroOrOne : Obligations.FlagIsZeroOrOne := by
  rintro s t x y n hsafe (h | h | h | h | h | ⟨hx, h | h⟩) -
  · exact flag_of_lastWrite (exec_addVxVy x y s) h
  · exact flag_of_lastWrite (exec_sub x y s) h
  · exact flag_of_lastWrite (exec_subn x y s) h
  · exact flag_of_addIVx h
  · exact flag_of_drw hsafe h
  · exact flag_of_setShifted hx (exec_shr x y s) h
  · exact flag_of_setShifted hx (exec_shl x y s) h

end Sys2Proof.Machine
end

section
/-! What an instruction can do, said once for all of them: the kinds of writes there are, and the frame of each. The rules over
all instructions follow by cases on the kind. -/

namespace Sys2Proof.Machine

/-! ### The kinds of effects -/

/-- The general registers an instruction may write: the one it names as its destination, and VF where it writes a flag
(spec/10_state.md R22). -/
def writtenRegs : Instr → List Reg
  | .ldVxNn x _ | .addVxNn x _ | .ldVxVy x _ | .or x _ | .and x _ | .xor x _ | .rnd x _ | .ldVxDt x | .ldVxK x => [x]
  | .addVxVy x _ | .sub x _ | .subn x _ | .shr x _ | .shl x _ => [x, VF]
  | .addIVx _ | .drw _ _ _ => [VF]
  | .ldVxMem x => regsUpTo x
  | .cls | .ret | .jp _ | .call _ | .seVxNn _ _ | .sneVxNn _ _ | .seVxVy _ _ | .sneVxVy _ _ | .ldINnn _ | .jpV0Nnn _
  | .skp _ | .sknp _ | .ldDtVx _ | .ldStVx _ | .ldFVx _ | .ldBVx _ | .ldMemVx _ => []

/-- The values an instruction that is no call and no return may set PC to, seen after the fetch advance: on, past the next
instruction, back to itself, or a jump target (spec/10_state.md R27). -/
def State.MayGoTo (s : State) (a : Word) : Prop := a = s.pc ∨ a = s.pc + 2 ∨ a = s.instrPc ∨ a.toNat ≤ 0x10FE

/-- An instruction raises a fatal before it writes anything (spec/60_exceptions.md R211). -/
inductive Raises (s : State) : Instr → Fatal → Prop where
  | overflow (a : BitVec 12) (h : 16 ≤ s.sp.val) : Raises s (.call a) (.stackOverflow s.instrPc)
  | underflow (h : s.sp.val = 0) : Raises s .ret (.stackUnderflow s.instrPc)
  | skpRange (x : Reg) (h : 0xF < (s.getV x).toNat) : Raises s (.skp x) (.keyRange s.instrPc (s.getV x))
  | sknpRange (x : Reg) (h : 0xF < (s.getV x).toNat) : Raises s (.sknp x) (.keyRange s.instrPc (s.getV x))
  | spriteRange (x y : Reg) (n : BitVec 4) (hn : n ≠ 0) (h : 0xFFF < indexBase s + n.toNat - 1) :
      Raises s (.drw x y n) (.memRange s.instrPc (max (indexBase s) 0x1000))

/-- The kinds of effects of an instruction on a state. Each names the instructions that may have it, where only some may, and
the state it leaves, with every field it does not write as before. -/
inductive Effect (s : State) : Instr → State → Prop where
  /-- general registers alone, and for CXNN the draw -/
  | regs {i : Instr} (v : Vector Byte 16) (bs : List Byte) (d : Nat)
      (h : SameRegsBut (writtenRegs i) s { s with v := v, rndBytes := bs, draws := d }) :
      Effect s i { s with v := v, rndBytes := bs, draws := d }
  /-- PC alone -/
  | pc {i : Instr} (a : Word) (h : s.MayGoTo a) : Effect s i { s with pc := a }
  /-- FAULT alone -/
  | fault {i : Instr} (r : Fatal) (h : Raises s i r) : Effect s i { s with fault := some r }
  | ldINnn (a : BitVec 12) : Effect s (.ldINnn a) (s.setI (addrOperand a))
  | addIVx (x : Reg) (flag : Byte) (a : Word) : Effect s (.addIVx x) ((s.setV VF flag).setI a)
  | ldFVx (x : Reg) : Effect s (.ldFVx x) (s.setI (glyphAddr (s.getV x)))
  | ldDtVx (x : Reg) : Effect s (.ldDtVx x) (s.setDt (s.getV x))
  | ldStVx (x : Reg) : Effect s (.ldStVx x) (s.setSt (s.getV x))
  | cls : Effect s .cls (s.setFb Frame.clear)
  | drw (x y : Reg) (n : BitVec 4) (f : Frame) (flag : Byte) : Effect s (.drw x y n) ((s.setFb f).setV VF flag)
  | ldBVx (x : Reg) (m : Memory) (e : Option Fatal)
      (h : s.storeBytes (indexBase s) (decimalDigits (s.getV x)) = { s with mem := m, fault := e }) :
      Effect s (.ldBVx x) { s with mem := m, fault := e }
  | ldMemVx (x : Reg) (m : Memory) (e : Option Fatal)
      (h : s.storeBytes (indexBase s) (regBytes s x) = { s with mem := m, fault := e }) :
      Effect s (.ldMemVx x) { s with mem := m, fault := e }
  | ldVxMem (x : Reg) (v : Vector Byte 16) (e : Option Fatal)
      (h : s.loadRegs (indexBase s) (regsUpTo x) = { s with v := v, fault := e }) :
      Effect s (.ldVxMem x) { s with v := v, fault := e }
  | ret (k : Fin (Config.stackSlots + 1)) (h : k.val + 1 = s.sp.val) :
      Effect s .ret { s with pc := s.slot (s.sp.val - 1), sp := k }
  | call (a : BitVec 12) (st : Vector Word Config.stackSlots) (k : Fin (Config.stackSlots + 1)) (h : s.sp.val < stackCapacity)
      (hk : k.val = s.sp.val + 1) (htop : ({ s with stack := st } : State).slot s.sp.val = s.pc)
      (hother : ∀ j, j ≠ s.sp.val → ({ s with stack := st } : State).slot j = s.slot j) :
      Effect s (.call a) { s with pc := addrOperand a, stack := st, sp := k }

/-! ### Every instruction has one of them -/

theorem Effect.of_onlyRegs {s t : State} {i : Instr} (h : OnlyRegs (writtenRegs i) s t) : Effect s i t := by
  obtain ⟨hregs, -, hrest⟩ := h
  rw [hrest] at hregs ⊢
  exact .regs t.v s.rndBytes s.draws hregs

theorem onlyRegs_setV (s : State) (x : Reg) (b : Byte) : OnlyRegs [x] s (s.setV x b) :=
  (OnlyRegs.refl [x] s).setV (List.mem_singleton_self x) b

theorem State.mayGoTo_skip (s : State) (c : Prop) [Decidable c] : s.MayGoTo (if c then s.pc + 2 else s.pc) := by
  split
  · exact .inr (.inl rfl)
  · exact .inl rfl

theorem State.mayGoTo_noSkip (s : State) (c : Prop) [Decidable c] : s.MayGoTo (if c then s.pc else s.pc + 2) := by
  split
  · exact .inl rfl
  · exact .inr (.inl rfl)

theorem State.mayGoTo_jp (s : State) (nnn : BitVec 12) : s.MayGoTo (addrOperand nnn) := by
  have hn := nnn.isLt
  refine .inr (.inr (.inr ?_))
  rw [addrOperand_toNat]
  omega

theorem State.mayGoTo_jpV0 (s : State) (nnn : BitVec 12) : s.MayGoTo (jumpV0Target s nnn) := by
  have hn := nnn.isLt
  have hb := (s.getV 0).isLt
  refine .inr (.inr (.inr ?_))
  rw [jumpV0Target_toNat]
  omega

theorem effect_ret (s : State) : ∃ t, exec .ret s = .next t ∧ Effect s .ret t := by
  by_cases h : s.sp.val = 0
  · exact ⟨_, exec_ret_empty h, .fault _ (.underflow h)⟩
  · obtain ⟨t, hexec, hpc, hsp, hrest⟩ := exec_ret_pop h
    refine ⟨t, hexec, ?_⟩
    rw [hrest, hpc]
    exact .ret t.sp hsp

theorem effect_call (s : State) (a : BitVec 12) : ∃ t, exec (.call a) s = .next t ∧ Effect s (.call a) t := by
  refine ⟨_, exec_call a s, ?_⟩
  by_cases h : s.sp.val < stackCapacity
  · obtain ⟨hrest, hsp, hslot, hother⟩ := callWith_room a s h stackCapacity_le_stackSlots
    rw [hrest]
    exact .call a _ _ h hsp hslot hother
  · rw [callWith_full a s (Nat.le_of_not_lt h)]
    exact .fault _ (.overflow a (Nat.le_of_not_lt h))

theorem effect_keySkip {s : State} {i : Instr} {x : Reg} (level : Bool)
    (hraises : 0xF < (s.getV x).toNat → Raises s i (.keyRange s.instrPc (s.getV x))) : Effect s i (keySkip x level s) := by
  by_cases h : 0xF < (s.getV x).toNat
  · rw [keySkip_outOfRange level h]
    exact .fault _ (hraises h)
  · rw [keySkip_inRange level (Nat.le_of_not_lt h)]
    exact .pc _ (s.mayGoTo_skip _)

theorem effect_drw (s : State) (x y : Reg) (n : BitVec 4) :
    ∃ t, exec (.drw x y n) s = .next t ∧ Effect s (.drw x y n) t := by
  rcases sprite_inRange_or n s with h | ⟨hn, h⟩
  · exact ⟨_, exec_drw_inRange x y h, .drw x y n _ _⟩
  · exact ⟨_, exec_drw_outOfRange x y hn h, .fault _ (.spriteRange x y n hn h)⟩

theorem effect_ldVxK (s : State) (x : Reg) : ∃ t, exec (.ldVxK x) s = .next t ∧ Effect s (.ldVxK x) t := by
  cases h : s.lowestPressed with
  | some k => exact ⟨_, exec_ldVxK_pressed x h, .of_onlyRegs (onlyRegs_setV s x _)⟩
  | none => exact ⟨_, exec_ldVxK_waiting x h, .pc _ (.inr (.inr (.inl rfl)))⟩

/-- Every instruction answers a next state, which one of the kinds describes. -/
theorem exists_effect (i : Instr) (s : State) : ∃ t, exec i s = .next t ∧ Effect s i t := by
  cases i with
  | cls => exact ⟨_, exec_cls s, .cls⟩
  | ret => exact effect_ret s
  | jp nnn => exact ⟨_, exec_jp nnn s, .pc _ (s.mayGoTo_jp nnn)⟩
  | call nnn => exact effect_call s nnn
  | seVxNn x nn => exact ⟨_, exec_seVxNn x nn s, .pc _ (s.mayGoTo_skip _)⟩
  | sneVxNn x nn => exact ⟨_, exec_sneVxNn x nn s, .pc _ (s.mayGoTo_noSkip _)⟩
  | seVxVy x y => exact ⟨_, exec_seVxVy x y s, .pc _ (s.mayGoTo_skip _)⟩
  | ldVxNn x nn => exact ⟨_, exec_ldVxNn x nn s, .of_onlyRegs (onlyRegs_setV s x _)⟩
  | addVxNn x nn => exact ⟨_, exec_addVxNn x nn s, .of_onlyRegs (onlyRegs_setV s x _)⟩
  | ldVxVy x y => exact ⟨_, exec_ldVxVy x y s, .of_onlyRegs (onlyRegs_setV s x _)⟩
  | or x y => exact ⟨_, exec_or x y s, .of_onlyRegs (onlyRegs_setV s x _)⟩
  | and x y => exact ⟨_, exec_and x y s, .of_onlyRegs (onlyRegs_setV s x _)⟩
  | xor x y => exact ⟨_, exec_xor x y s, .of_onlyRegs (onlyRegs_setV s x _)⟩
  | addVxVy x y => exact ⟨_, exec_addVxVy x y s, .of_onlyRegs (onlyRegs_setShifted s .resultThenFlag x _ _)⟩
  | sub x y => exact ⟨_, exec_sub x y s, .of_onlyRegs (onlyRegs_setShifted s .resultThenFlag x _ _)⟩
  | shr x y => exact ⟨_, exec_shr x y s, .of_onlyRegs (onlyRegs_setShifted s shiftXfOrder x _ _)⟩
  | subn x y => exact ⟨_, exec_subn x y s, .of_onlyRegs (onlyRegs_setShifted s .resultThenFlag x _ _)⟩
  | shl x y => exact ⟨_, exec_shl x y s, .of_onlyRegs (onlyRegs_setShifted s shiftXfOrder x _ _)⟩
  | sneVxVy x y => exact ⟨_, exec_sneVxVy x y s, .pc _ (s.mayGoTo_noSkip _)⟩
  | ldINnn nnn => exact ⟨_, exec_ldINnn nnn s, .ldINnn nnn⟩
  | jpV0Nnn nnn => exact ⟨_, exec_jpV0Nnn nnn s, .pc _ (s.mayGoTo_jpV0 nnn)⟩
  | rnd x nn =>
    obtain ⟨hregs, -, -⟩ := onlyRegs_setV s x (s.drawnByte &&& nn)
    exact ⟨_, exec_rnd x nn s, .regs _ _ _ hregs⟩
  | drw x y n => exact effect_drw s x y n
  | skp x => exact ⟨_, exec_skp x s, effect_keySkip true (.skpRange x)⟩
  | sknp x => exact ⟨_, exec_sknp x s, effect_keySkip false (.sknpRange x)⟩
  | ldVxDt x => exact ⟨_, exec_ldVxDt x s, .of_onlyRegs (onlyRegs_setV s x _)⟩
  | ldVxK x => exact effect_ldVxK s x
  | ldDtVx x => exact ⟨_, exec_ldDtVx x s, .ldDtVx x⟩
  | ldStVx x => exact ⟨_, exec_ldStVx x s, .ldStVx x⟩
  | addIVx x => exact ⟨_, exec_addIVx x s, .addIVx x _ _⟩
  | ldFVx x => exact ⟨_, exec_ldFVx x s, .ldFVx x⟩
  | ldBVx x =>
    have hrest := State.storeBytes_eq (decimalDigits (s.getV x)) s (indexBase s)
    exact ⟨_, (exec_ldBVx x s).trans (congrArg _ hrest), .ldBVx x _ _ hrest⟩
  | ldMemVx x =>
    have hrest := State.storeBytes_eq (regBytes s x) s (indexBase s)
    exact ⟨_, (exec_ldMemVx x s).trans (congrArg _ hrest), .ldMemVx x _ _ hrest⟩
  | ldVxMem x =>
    have hrest := State.loadRegs_eq (regsUpTo x) s (indexBase s)
    exact ⟨_, (exec_ldVxMem x s).trans (congrArg _ hrest), .ldVxMem x _ _ hrest⟩

theorem effect_of_exec {i : Instr} {s t : State} (h : exec i s = .next t) : Effect s i t := by
  obtain ⟨u, hexec, heffect⟩ := exists_effect i s
  obtain rfl := Host.Outcome.next.inj (hexec.symm.trans h)
  exact heffect

/-! ### Which instructions write what -/

theorem exec_mem {i : Instr} {s t : State} (h : exec i s = .next t) (hi : ∀ x, i ≠ .ldBVx x ∧ i ≠ .ldMemVx x) :
    t.mem = s.mem := by
  cases effect_of_exec h with
  | ldBVx x => exact absurd rfl (hi x).1
  | ldMemVx x => exact absurd rfl (hi x).2
  | _ => rfl

theorem exec_fb {i : Instr} {s t : State} (h : exec i s = .next t) (hcls : i ≠ .cls) (hdrw : ∀ x y n, i ≠ .drw x y n) :
    t.fb = s.fb := by
  cases effect_of_exec h with
  | cls => exact absurd rfl hcls
  | drw x y n => exact absurd rfl (hdrw x y n)
  | _ => rfl

theorem exec_index {i : Instr} {s t : State} (h : exec i s = .next t) (hload : ∀ a, i ≠ .ldINnn a)
    (hadd : ∀ x, i ≠ .addIVx x ∧ i ≠ .ldFVx x) : t.i = s.i := by
  cases effect_of_exec h with
  | ldINnn a => exact absurd rfl (hload a)
  | addIVx x => exact absurd rfl (hadd x).1
  | ldFVx x => exact absurd rfl (hadd x).2
  | _ => rfl

theorem exec_dt {i : Instr} {s t : State} (h : exec i s = .next t) (hi : ∀ x, i ≠ .ldDtVx x) : t.dt = s.dt := by
  cases effect_of_exec h with
  | ldDtVx x => exact absurd rfl (hi x)
  | _ => rfl

theorem exec_st {i : Instr} {s t : State} (h : exec i s = .next t) (hi : ∀ x, i ≠ .ldStVx x) : t.st = s.st := by
  cases effect_of_exec h with
  | ldStVx x => exact absurd rfl (hi x)
  | _ => rfl

theorem exec_stack {i : Instr} {s t : State} (h : exec i s = .next t) (hret : i ≠ .ret) (hcall : ∀ a, i ≠ .call a) :
    t.sp = s.sp ∧ t.stack = s.stack := by
  cases effect_of_exec h with
  | ret => exact absurd rfl hret
  | call a => exact absurd rfl (hcall a)
  | _ => exact ⟨rfl, rfl⟩

/-- A load, also one that raises on its way, writes only the registers of its list. -/
theorem sameRegsBut_loadRegs (rs : List Reg) (s : State) (base : Nat) : SameRegsBut rs s (s.loadRegs base rs) := by
  induction rs generalizing s with
  | nil => exact fun _ _ => rfl
  | cons k ks ih =>
    intro r hr
    have hne : r ≠ k := fun e => hr (e ▸ List.mem_cons_self)
    have hnot : r ∉ ks := fun h => hr (List.mem_cons_of_mem k h)
    rw [State.loadRegs]
    split
    · rw [ih _ r hnot, State.getV_setV_ne s hne]
    · rw [State.getV_raiseFatal]

theorem exec_sameRegsBut {i : Instr} {s t : State} (h : exec i s = .next t) : SameRegsBut (writtenRegs i) s t := by
  cases effect_of_exec h with
  | regs v bs d hregs => exact hregs
  | addIVx x flag a => exact fun r hr => State.getV_setV_ne s (List.ne_of_not_mem_cons hr) flag
  | drw x y n f flag => exact fun r hr => State.getV_setV_ne (s.setFb f) (List.ne_of_not_mem_cons hr) flag
  | ldVxMem x v e hload =>
    rw [← hload]
    exact sameRegsBut_loadRegs (regsUpTo x) s (indexBase s)
  | _ => exact fun _ _ => rfl

/-- Settles O49: of the kinds of effects only the two stores touch memory, only CLS and DXYN the framebuffer. -/
theorem writersOfMemoryAndFrame : Obligations.WritersOfMemoryAndFrame := fun _ _ _ h =>
  ⟨fun hi => ⟨sameMemory_of_mem (exec_mem h hi), exec_mem h hi⟩, fun ⟨hcls, hdrw⟩ => exec_fb h hcls hdrw⟩

/-- Settles O50: each of these fields by the kinds of effects that write it. -/
theorem writersOfIndexTimersStack : Obligations.WritersOfIndexTimersStack := fun _ _ _ h =>
  ⟨fun ⟨hload, hadd⟩ => exec_index h hload hadd, exec_dt h, exec_st h, fun ⟨hret, hcall⟩ => exec_stack h hret hcall⟩

/-- Settles O51: no kind of effect writes one of these fields. -/
theorem instructionsLeaveHostState : Obligations.InstructionsLeaveHostState := by
  intro i s t h
  cases effect_of_exec h <;> exact ⟨rfl, rfl, rfl, rfl, rfl, rfl, rfl, rfl⟩

/-- A destination that makes the instruction another one than VF would is not VF. -/
theorem vf_not_mem_of_ne {c : Reg → Instr} {x : Reg} (h : c x ≠ c VF) : VF ∉ [x] := fun hx =>
  h (congrArg c (List.mem_singleton.1 hx).symm)

theorem vf_not_mem_regsUpTo {x : Reg} (h : x ≠ VF) : VF ∉ regsUpTo x := fun hx =>
  h (Fin.le_antisymm (Fin.le_last x) ((mem_regsUpTo x VF).1 hx))

/-- Settles O52: the instructions left over do not list VF among the registers they may write. -/
theorem writersOfFlag : Obligations.WritersOfFlag := by
  intro i s t h halu hindex himm hcopy hdt hkey hload
  refine exec_sameRegsBut h VF ?_
  cases i with
  | ldVxNn x nn =>
    obtain ⟨hne, -, -⟩ := himm nn
    exact vf_not_mem_of_ne (c := (.ldVxNn · nn)) hne
  | addVxNn x nn =>
    obtain ⟨-, hne, -⟩ := himm nn
    exact vf_not_mem_of_ne (c := (.addVxNn · nn)) hne
  | rnd x nn =>
    obtain ⟨-, -, hne⟩ := himm nn
    exact vf_not_mem_of_ne (c := (.rnd · nn)) hne
  | ldVxVy x y =>
    obtain ⟨hne, -, -, -⟩ := hcopy y
    exact vf_not_mem_of_ne (c := (.ldVxVy · y)) hne
  | or x y =>
    obtain ⟨-, hne, -, -⟩ := hcopy y
    exact vf_not_mem_of_ne (c := (.or · y)) hne
  | and x y =>
    obtain ⟨-, -, hne, -⟩ := hcopy y
    exact vf_not_mem_of_ne (c := (.and · y)) hne
  | xor x y =>
    obtain ⟨-, -, -, hne⟩ := hcopy y
    exact vf_not_mem_of_ne (c := (.xor · y)) hne
  | ldVxDt x => exact vf_not_mem_of_ne (c := .ldVxDt) hdt
  | ldVxK x => exact vf_not_mem_of_ne (c := .ldVxK) hkey
  | ldVxMem x => exact vf_not_mem_regsUpTo fun hx => hload (congrArg Instr.ldVxMem hx)
  | addVxVy x y | sub x y | subn x y | shr x y | shl x y =>
    obtain ⟨hadd, hsub, hsubn, hshr, hshl⟩ := halu x y
    contradiction
  | addIVx x =>
    obtain ⟨hadd, -⟩ := hindex x x 0
    exact absurd rfl hadd
  | drw x y n =>
    obtain ⟨-, hdrw⟩ := hindex x y n
    exact absurd rfl hdrw
  | _ => exact List.not_mem_nil

/-! ### Which fatals are raised -/

/-- A store that starts with no fault ends with none, or it left memory. -/
theorem fault_of_storeBytes {bs : List Byte} {s : State} {a : Nat} {r : Fatal} (hb : bs ≠ []) (hs : s.fault = none)
    (h : (s.storeBytes a bs).fault = some r) : 0x1000 < a + bs.length ∧ r = .memRange s.instrPc (max a 0x1000) := by
  by_cases hout : 0x1000 < a + bs.length
  · exact ⟨hout, Option.some.inj (h.symm.trans (storeBytes_fault hb hout))⟩
  · rw [State.storeBytes_inRange (Nat.le_of_not_lt hout), State.copyBytes_eq, hs] at h
    exact absurd h.symm (Option.some_ne_none r)

theorem fault_of_loadRegs_upTo {x : Reg} {s : State} {base : Nat} {r : Fatal} (hs : s.fault = none)
    (h : (s.loadRegs base (regsUpTo x)).fault = some r) :
    0xFFF < base + x.val ∧ r = .memRange s.instrPc (max base 0x1000) := by
  by_cases hout : 0xFFF < base + x.val
  · exact ⟨hout, Option.some.inj (h.symm.trans (loadRegs_upTo_fault hout))⟩
  · rw [State.fault_loadRegs (addrs_inRange (Nat.le_of_not_lt hout)), hs] at h
    exact absurd h.symm (Option.some_ne_none r)

/-- Settles O53: a fatal is raised before any write, or by a store or a load that left memory. -/
theorem fatalCauses : Obligations.FatalCauses := by
  intro i s t r h hs ht
  cases effect_of_exec h with
  | fault r' hraises =>
    obtain rfl := Option.some.inj ht
    cases hraises with
    | overflow a hfull => exact .inl ⟨a, rfl, hfull, rfl⟩
    | underflow hempty => exact .inr (.inl ⟨rfl, hempty, rfl⟩)
    | skpRange x hkey => exact .inr (.inr (.inl ⟨x, .inl rfl, hkey, rfl⟩))
    | sknpRange x hkey => exact .inr (.inr (.inl ⟨x, .inr rfl, hkey, rfl⟩))
    | spriteRange x y n hn hout => exact .inr (.inr (.inr (.inr (.inr ⟨x, y, n, rfl, hn, hout, rfl⟩))))
  | ldBVx x m e hstore =>
    obtain ⟨hout, hr⟩ := fault_of_storeBytes (List.cons_ne_nil _ _) hs ((congrArg State.fault hstore).trans ht)
    exact .inr (.inr (.inr (.inl ⟨x, rfl, Nat.lt_of_add_lt_add_right (n := 3) hout, hr⟩)))
  | ldMemVx x m e hstore =>
    have hlength := regBytes_length s x
    obtain ⟨hout, hr⟩ :=
      fault_of_storeBytes (List.ne_nil_of_length_eq_add_one hlength) hs ((congrArg State.fault hstore).trans ht)
    exact .inr (.inr (.inr (.inr (.inl ⟨x, .inl rfl, by omega, hr⟩))))
  | ldVxMem x v e hload =>
    obtain ⟨hout, hr⟩ := fault_of_loadRegs_upTo hs ((congrArg State.fault hload).trans ht)
    exact .inr (.inr (.inr (.inr (.inl ⟨x, .inr rfl, hout, hr⟩))))
  | _ => exact absurd (hs.symm.trans ht) (Option.some_ne_none r).symm

end Sys2Proof.Machine
end

section
/-! What no instruction reads (spec/10_state.md section 7): every operation commutes with a change of ST, the accumulators and
the output ports. -/

namespace Sys2Proof.Machine

/-- The state with other values in ST, the accumulators and the output ports. -/
def State.withUnread (s : State) (b : Byte) (a c : Nat) (f : Frame) (e : Bool) : State :=
  { s with st := b, dtAcc := a, stAcc := c, frameOut := f, beepOut := e }

variable (s : State) (b : Byte) (a c : Nat) (f : Frame) (e : Bool)

theorem keySkip_withUnread (x : Reg) (level : Bool) :
    keySkip x level (s.withUnread b a c f e) = (keySkip x level s).withUnread b a c f e := by
  by_cases h : 0xF < (s.getV x).toNat
  · rw [keySkip_outOfRange level h, keySkip_outOfRange (s := s.withUnread b a c f e) level h]
    rfl
  · have hle := Nat.le_of_not_lt h
    rw [keySkip_inRange level hle, keySkip_inRange (s := s.withUnread b a c f e) level hle]
    rfl

theorem pop_withUnread :
    (s.withUnread b a c f e).pop = s.pop.map fun p => (p.1, p.2.withUnread b a c f e) := by
  by_cases h : s.sp.val = 0
  · rw [s.pop_empty h, State.pop_empty (s.withUnread b a c f e) h]
    rfl
  · simp only [State.pop, dif_neg h, dif_neg (show ¬(s.withUnread b a c f e).sp.val = 0 from h)]
    rfl

theorem push_withUnread (capacity : Nat) (w : Word) :
    (s.withUnread b a c f e).push capacity w = (s.push capacity w).map fun t => t.withUnread b a c f e := by
  by_cases h : s.sp.val < capacity ∧ s.sp.val < Config.stackSlots
  · simp only [State.push, dif_pos h, dif_pos (show (s.withUnread b a c f e).sp.val < capacity ∧
      (s.withUnread b a c f e).sp.val < Config.stackSlots from h)]
    rfl
  · simp only [State.push, dif_neg h, dif_neg (show ¬((s.withUnread b a c f e).sp.val < capacity ∧
      (s.withUnread b a c f e).sp.val < Config.stackSlots) from h)]
    rfl

theorem callWith_withUnread (capacity : Nat) (nnn : BitVec 12) :
    callWith capacity nnn (s.withUnread b a c f e) = (callWith capacity nnn s).withUnread b a c f e := by
  have hpush := push_withUnread s b a c f e capacity s.pc
  rw [callWith, callWith, show (s.withUnread b a c f e).pc = s.pc from rfl, hpush]
  cases s.push capacity s.pc <;> rfl

theorem storeBytes_withUnread (addr : Nat) (bs : List Byte) :
    (s.withUnread b a c f e).storeBytes addr bs = (s.storeBytes addr bs).withUnread b a c f e := by
  induction bs generalizing s addr with
  | nil => rfl
  | cons d bs ih =>
    rw [State.storeBytes, State.storeBytes]
    split
    · exact ih (s.memWrite addr d) (addr + 1)
    · rfl

theorem loadRegs_withUnread (base : Nat) (rs : List Reg) :
    (s.withUnread b a c f e).loadRegs base rs = (s.loadRegs base rs).withUnread b a c f e := by
  induction rs generalizing s with
  | nil => rfl
  | cons k ks ih =>
    rw [State.loadRegs, State.loadRegs]
    split
    · exact ih (s.setV k (s.memRead (base + k.val)))
    · rfl

variable {s}

theorem exec_ret_withUnread {t : State} (h : exec .ret s = .next t) :
    exec .ret (s.withUnread b a c f e) = .next (t.withUnread b a c f e) := by
  simp only [exec, execRet, pop_withUnread s b a c f e] at h ⊢
  cases hpop : s.pop <;> rw [hpop] at h <;> obtain rfl := Host.Outcome.next.inj h <;> rfl

theorem exec_drw_withUnread {x y : Reg} {n : BitVec 4} {t : State} (h : exec (.drw x y n) s = .next t) :
    exec (.drw x y n) (s.withUnread b a c f e) = .next (t.withUnread b a c f e) := by
  rcases sprite_inRange_or n s with hin | ⟨hn, hout⟩
  · obtain rfl := Host.Outcome.next.inj ((exec_drw_inRange x y hin).symm.trans h)
    exact exec_drw_inRange x y (s := s.withUnread b a c f e) hin
  · obtain rfl := Host.Outcome.next.inj ((exec_drw_outOfRange x y hn hout).symm.trans h)
    exact exec_drw_outOfRange x y (s := s.withUnread b a c f e) hn hout

theorem exec_ldVxK_withUnread {x : Reg} {t : State} (h : exec (.ldVxK x) s = .next t) :
    exec (.ldVxK x) (s.withUnread b a c f e) = .next (t.withUnread b a c f e) := by
  cases hlow : s.lowestPressed with
  | some k =>
    obtain rfl := Host.Outcome.next.inj ((exec_ldVxK_pressed x hlow).symm.trans h)
    exact exec_ldVxK_pressed x (s := s.withUnread b a c f e) hlow
  | none =>
    obtain rfl := Host.Outcome.next.inj ((exec_ldVxK_waiting x hlow).symm.trans h)
    exact exec_ldVxK_waiting x (s := s.withUnread b a c f e) hlow

/-- An instruction given by one equation for all states takes the changed state to the changed result when its operation
does. -/
theorem exec_withUnread_of_eq {i : Instr} {op : State → State} (hop : ∀ s, exec i s = .next (op s))
    (hcomm : op (s.withUnread b a c f e) = (op s).withUnread b a c f e) {t : State} (h : exec i s = .next t) :
    exec i (s.withUnread b a c f e) = .next (t.withUnread b a c f e) := by
  obtain rfl := Host.Outcome.next.inj ((hop s).symm.trans h)
  rw [hop, hcomm]

theorem exec_withUnread {i : Instr} {t : State} (h : exec i s = .next t) (hi : ∀ x, i ≠ .ldStVx x) :
    exec i (s.withUnread b a c f e) = .next (t.withUnread b a c f e) := by
  cases i with
  | ldStVx x => exact absurd rfl (hi x)
  | ret => exact exec_ret_withUnread b a c f e h
  | call nnn => exact exec_withUnread_of_eq b a c f e (exec_call nnn) (callWith_withUnread s b a c f e _ nnn) h
  | seVxNn x nn => exact exec_withUnread_of_eq b a c f e (exec_seVxNn x nn) rfl h
  | sneVxNn x nn => exact exec_withUnread_of_eq b a c f e (exec_sneVxNn x nn) rfl h
  | seVxVy x y => exact exec_withUnread_of_eq b a c f e (exec_seVxVy x y) rfl h
  | sneVxVy x y => exact exec_withUnread_of_eq b a c f e (exec_sneVxVy x y) rfl h
  | drw x y n => exact exec_drw_withUnread b a c f e h
  | skp x => exact exec_withUnread_of_eq b a c f e (exec_skp x) (keySkip_withUnread s b a c f e x true) h
  | sknp x => exact exec_withUnread_of_eq b a c f e (exec_sknp x) (keySkip_withUnread s b a c f e x false) h
  | ldVxK x => exact exec_ldVxK_withUnread b a c f e h
  | ldBVx x => exact exec_withUnread_of_eq b a c f e (exec_ldBVx x) (storeBytes_withUnread s b a c f e _ _) h
  | ldMemVx x => exact exec_withUnread_of_eq b a c f e (exec_ldMemVx x) (storeBytes_withUnread s b a c f e _ _) h
  | ldVxMem x => exact exec_withUnread_of_eq b a c f e (exec_ldVxMem x) (loadRegs_withUnread s b a c f e _ _) h
  | _ =>
    obtain rfl := Host.Outcome.next.inj h
    rfl

/-- Settles O54: FX18 overwrites ST, and every other instruction commutes with the change. -/
theorem soundTimerIsNotRead : Obligations.SoundTimerIsNotRead := by
  intro i s t b a c f e h
  split
  · obtain rfl := Host.Outcome.next.inj h
    rfl
  · rename_i hi
    exact exec_withUnread b a c f e h hi

end Sys2Proof.Machine
end

section
/-! The cycle (spec/60_exceptions.md R230): it ticks, fetches, executes and exchanges with the host; a fatal ends it and a
terminal state has none. -/

namespace Sys2Proof.Machine

/-! ### The parts of a cycle -/

theorem cycle_of_running {s : State} (h : s.Running) (p : Nat) (ex : Execution) :
    cycle p ex s = runInstruction ex (s.tickTimersBy p) := by
  obtain ⟨hfault, hended⟩ := h
  simp [cycle, hfault, hended]

theorem runInstruction_of_fetch {s : State} {w : Word} (h : s.fetchWord = .ok w) (ex : Execution) :
    runInstruction ex s = finishCycle (execWord ex w s.advancePc) := by
  simp [runInstruction, h]

theorem runInstruction_of_error {s : State} {r : Fatal} (h : s.fetchWord = .error r) (ex : Execution) :
    runInstruction ex s = .next (s.raiseFatal r) := by
  simp [runInstruction, h]

theorem finishCycle_next (t : State) :
    finishCycle (.next t) = .next (if t.fault.isSome then t else t.hostExchange) :=
  (apply_ite Host.Outcome.next ..).symm

/-- Settles O6: the cycle of a state whose fetch reads a known instruction. -/
theorem stepRunsDecodedInstruction : Obligations.StepRunsDecodedInstruction := by
  intro s i hrun hpc hbytes
  have hstep : step s = finishCycle (exec i (s.tickTimers.setPc (s.pc + 2))) :=
    cycle_of_fetches ⟨hrun, hpc, hbytes⟩ timerPeriod exec
  exact ⟨hstep, fun t ht => by rw [hstep, ht, finishCycle_next]⟩

/-- Settles O7: nothing is executed between the fetch advance and the host exchange. -/
theorem unrecognisedWordIsNoOp : Obligations.UnrecognisedWordIsNoOp := by
  intro s hrun hpc hword
  have ⟨hfault, _⟩ := hrun
  have hexec : execWord exec (wordOfBytes (s.memRead s.pc.toNat) (s.memRead (s.pc.toNat + 1))) s.tickTimers.advancePc =
      .next s.tickTimers.advancePc := by rw [execWord, hword, execUnrecognised]
  calc step s = runInstruction exec s.tickTimers := cycle_of_running hrun timerPeriod exec
    _ = finishCycle (.next s.tickTimers.advancePc) := by
      rw [runInstruction_of_fetch (State.fetchWord_ok (s := s.tickTimers) hpc)]
      exact congrArg finishCycle hexec
    _ = .next (s.tickTimers.setPc (s.pc + 2)).hostExchange := finishCycle_of_safe (t := s.tickTimers.advancePc) hfault

/-- Settles O8: the fetch is what raises, so PC has not advanced. -/
theorem fetchPastMemoryFaults : Obligations.FetchPastMemoryFaults := fun s hrun hpc =>
  (cycle_of_running hrun timerPeriod exec).trans
    (runInstruction_of_error (State.fetchWord_error (s := s.tickTimers) hpc) exec)

/-- Settles O10: the cycle asks for FAULT and RUN_ENDED first. -/
theorem terminalStatesHaveNoCycle : Obligations.TerminalStatesHaveNoCycle :=
  ⟨fun s r hfault => by simp [step, cycle, hfault], fun s hfault hended => by simp [step, cycle, hfault, hended]⟩

/-! ### The host exchange -/

theorem State.hostTurn_of_cons {s : State} {turn : HostTurn} {rest : List HostTurn} (h : s.hostTurns = turn :: rest) :
    s.hostTurn = turn := by
  rw [State.hostTurn, h]

/-- The host's answer depends on nothing but the list of coming answers and the count of the calls. -/
theorem State.hostTurn_congr {s t : State} (hturns : t.hostTurns = s.hostTurns) (hcalls : t.hostCalls = s.hostCalls) :
    t.hostTurn = s.hostTurn := by
  rw [State.hostTurn, State.hostTurn, hturns, hcalls]

/-- Settles O9: the fields of the exchange, one by one. -/
theorem hostExchangeEffect : Obligations.HostExchangeEffect := by
  refine fun s => ⟨rfl, rfl, ?beep, ?ended, fun turn rest h => ⟨State.hostTurn_of_cons h, ?turns⟩, rfl⟩
  case beep => rw [State.hostExchange_beepOut, decide_eq_true_iff]
  case ended => simp
  case turns => rw [State.hostExchange_hostTurns, h, List.tail_cons]

/-! ### How a cycle ends -/

/-- The state before the host exchange: nothing of the host's part has changed, RUN_ENDED included. -/
structure State.BeforeHost (s u : State) : Prop where
  key : u.key = s.key
  runEnded : u.runEnded = s.runEnded
  frameOut : u.frameOut = s.frameOut
  beepOut : u.beepOut = s.beepOut
  hostTurns : u.hostTurns = s.hostTurns
  hostCalls : u.hostCalls = s.hostCalls

theorem beforeHost_of_execWord {s u : State} {w : Word} (h : execWord exec w s.tickTimers.advancePc = .next u) :
    s.BeforeHost u := by
  unfold execWord at h
  split at h
  · rename_i i _
    obtain ⟨hkey, -, -, hended, hframe, hbeep, hturns, hcalls⟩ := instructionsLeaveHostState i _ u h
    exact ⟨hkey, hended, hframe, hbeep, hturns, hcalls⟩
  · obtain rfl := Host.Outcome.next.inj h
    exact ⟨rfl, rfl, rfl, rfl, rfl, rfl⟩

/-- A step ends with a fatal, or it completes with the host exchange. -/
theorem step_ends {s t : State} (h : step s = .next t) :
    ∃ u, s.BeforeHost u ∧ ((t = u ∧ t.fault ≠ none) ∨ (t = u.hostExchange ∧ t.fault = none)) := by
  obtain ⟨-, ⟨r, -, rfl⟩ | ⟨w, u, -, hexec, rfl⟩⟩ := step_next h
  · exact ⟨s.tickTimers.raiseFatal r, ⟨rfl, rfl, rfl, rfl, rfl, rfl⟩, .inl ⟨rfl, Option.some_ne_none r⟩⟩
  · refine ⟨u, beforeHost_of_execWord hexec, ?_⟩
    cases hfault : u.fault with
    | none => exact .inr ⟨rfl, hfault⟩
    | some r => exact .inl ⟨rfl, by simp [hfault]⟩

/-- Settles O11: with a fatal the cycle ends before the host exchange. -/
theorem fatalEndsTheCycle : Obligations.FatalEndsTheCycle := by
  refine ⟨fun s r => rfl, fun s t r h ht => ?_⟩
  obtain ⟨hhalts, -⟩ := terminalStatesHaveNoCycle
  obtain ⟨u, hu, ⟨rfl, -⟩ | ⟨-, hsafe⟩⟩ := step_ends h
  · exact ⟨hu.frameOut, hu.key, hu.beepOut, hu.runEnded, hu.hostTurns, hu.hostCalls, hhalts t r ht⟩
  · exact absurd (ht.symm.trans hsafe) (Option.some_ne_none r)

/-- Settles O12: with no fatal the cycle ends with the host exchange, and RUN_ENDED was false before it. -/
theorem completedCycleExchangesWithHost : Obligations.CompletedCycleExchangesWithHost := by
  intro s t h hsafe
  obtain ⟨⟨-, hrunning⟩, -⟩ := step_next h
  obtain ⟨u, hu, ⟨-, hfatal⟩ | ⟨rfl, -⟩⟩ := step_ends h
  · exact absurd hsafe hfatal
  · have hturn : u.hostTurn = s.hostTurn := State.hostTurn_congr hu.hostTurns hu.hostCalls
    refine ⟨by rw [State.hostExchange_key, hturn], rfl, decide_eq_true_iff, ?ended,
      by rw [State.hostExchange_hostTurns, hu.hostTurns]⟩
    case ended => simp [hturn, hu.runEnded, hrunning]

/-! ### A word placed where the next fetch reads it (spec/20_memory.md R55, R60) -/

theorem tableWord_toNat (w : Word) : tableWord 16 w.toNat = w := by
  rw [tableWord, Nat.mod_eq_of_lt w.isLt, BitVec.ofNat_toNat, BitVec.setWidth_eq]

theorem memRead_placeAtPc (s : State) (w : Word) (a : Nat) : (s.placeAtPc w).memRead a =
    if a = s.pc.toNat + 1 then lowByte w else if a = s.pc.toNat then highByte w else s.memRead a := by
  rw [State.placeAtPc, State.memRead_memWrite, State.memRead_memWrite]

/-- Settles O57: the two bytes placed are the two bytes fetched. -/
theorem placedWordIsFetched : Obligations.PlacedWordIsFetched := by
  intro s w hpc
  rw [State.withFetchWord, tableWord_toNat]
  have hhigh : (s.placeAtPc w).memRead s.pc.toNat = highByte w := by simp [memRead_placeAtPc]
  have hlow : (s.placeAtPc w).memRead (s.pc.toNat + 1) = lowByte w := by simp [memRead_placeAtPc]
  refine ⟨?fetch, hhigh, hlow, fun a ha => ?outside, rfl⟩
  case fetch =>
    have hfetch := State.fetchWord_ok (s := s.placeAtPc w) hpc
    rw [hfetch, show (s.placeAtPc w).pc = s.pc from rfl, hhigh, hlow, wordOfBytes_high_low]
  case outside => rw [memRead_placeAtPc, if_neg (by omega), if_neg (by omega)]

/-! ### Under given parameters (spec/10_state.md R39) -/

theorem timerPeriodOf_hardware : timerPeriodOf hardware = timerPeriod := rfl

/-- Settles O58: at the values of this hardware the two executions of an instruction agree, and so do the periods. -/
theorem stepIsStepWithHardware : Obligations.StepIsStepWithHardware := by
  refine ⟨fun s => ?step, ?allowed, rfl, timerPeriodOf_hardware⟩
  case step =>
    have hexec : execWith hardware = exec := funext₂ execWith_hardware
    rw [step, stepWith, hexec, timerPeriodOf_hardware]
  case allowed =>
    have hrate : cycleRateWellFormed Config.cycleRate = true := decide_eq_true timerPeriod_pos
    simp [Params.wellFormed, hardware, hrate, stackCapacity_le_stackSlots, font]

theorem execWith_eq_exec (p : Params) {i : Instr} (s : State) (hcall : ∀ nnn, i ≠ .call nnn)
    (hshift : ∀ x y, i ≠ .shr x y ∧ i ≠ .shl x y) : execWith p i s = exec i s := by
  cases i with
  | call nnn => exact absurd rfl (hcall nnn)
  | shr x y => exact absurd rfl (hshift x y).1
  | shl x y => exact absurd rfl (hshift x y).2
  | _ => rfl

/-- Settles O59: CALL and the shifts by their equations under parameters, the rest as on this hardware. -/
theorem stepUnderParameters : Obligations.StepUnderParameters := by
  refine fun p s => ⟨fun i hf => cycle_of_fetches hf _ _, fun x y => ⟨rfl, rfl⟩,
    fun nnn hcap hroom => ⟨_, rfl, callWith_pushes nnn hroom hcap⟩,
    fun nnn hfull => congrArg _ (callWith_full nnn s hfull), fun i hcall hshift => execWith_eq_exec p s hcall hshift⟩

end Sys2Proof.Machine
end

section
/-! The timers (spec/60_exceptions.md section 3, spec/44_keypad_timers.md R198): one tick, and when a counter first reads a given
value. -/

namespace Sys2Proof.Machine

/-! ### One tick -/

theorem tickTimer_drops {p : Nat} {c : Byte} {a : Nat} (hc : 0 < c.toNat) (ha : a + 1 = p) :
    tickTimer p (c, a) = (c - 1, 0) := by
  simp [tickTimer, hc, ha]

theorem tickTimer_counts {p : Nat} {c : Byte} {a : Nat} (hc : 0 < c.toNat) (ha : a + 1 ≠ p) :
    tickTimer p (c, a) = (c, a + 1) := by
  simp [tickTimer, hc, ha]

/-- Settles O13: the three cases of a tick, and the cycle of a running state after it. -/
theorem timerTick : Obligations.TimerTick :=
  ⟨fun _ _ _ => tickTimer_drops, fun _ _ _ => tickTimer_counts, tickTimer_zero, fun _ => ⟨rfl, rfl, rfl⟩, timerPeriod_pos,
    fun _ hrun => cycle_of_running hrun timerPeriod exec⟩

/-! ### Many ticks -/

theorem iterate_tickTimer_zero (p a k : Nat) : (tickTimer p)^[k] (0, a) = (0, a) :=
  Function.iterate_fixed (tickTimer_zero p a) k

/-- Below the next drop the counter keeps its value. -/
theorem iterate_tickTimer_counts {p : Nat} {c : Byte} {a k : Nat} (hc : 0 < c.toNat) (hk : a + k < p) :
    (tickTimer p)^[k] (c, a) = (c, a + k) := by
  induction k with
  | zero => rfl
  | succ k ih =>
    rw [Function.iterate_succ_apply', ih (by omega), tickTimer_counts hc (by omega), Nat.add_assoc]

/-- The tick that fills the period. -/
theorem iterate_tickTimer_drops {p : Nat} {c : Byte} {a : Nat} (hc : 0 < c.toNat) (ha : a < p) :
    (tickTimer p)^[p - a] (c, a) = (c - 1, 0) := by
  obtain ⟨k, hk⟩ : ∃ k, p - a = k + 1 := ⟨p - a - 1, by omega⟩
  rw [hk, Function.iterate_succ_apply', iterate_tickTimer_counts hc (by omega), tickTimer_drops hc (by omega)]

theorem toNat_sub_ofNat {v : Byte} {j : Nat} (hj : j ≤ v.toNat) : (v - BitVec.ofNat 8 j).toNat = v.toNat - j := by
  have hv := v.isLt
  have hj' : (BitVec.ofNat 8 j).toNat = j := Nat.mod_eq_of_lt (by omega)
  rw [BitVec.toNat_sub, hj']
  omega

/-- The number of ticks until the counter first reads `j` less (R198). -/
def ticksToDrop (p a j : Nat) : Nat := (p - a) + (j - 1) * p

theorem ticksToDrop_succ (p a : Nat) {j : Nat} (hj : 1 ≤ j) : ticksToDrop p a (j + 1) = p + ticksToDrop p a j := by
  obtain ⟨m, rfl⟩ : ∃ m, j = m + 1 := ⟨j - 1, by omega⟩
  simp only [ticksToDrop, Nat.add_sub_cancel, Nat.succ_mul]
  omega

theorem iterate_tickTimer_ticksToDrop {p a : Nat} {v : Byte} {j : Nat} (ha : a < p) (hj : 1 ≤ j) (hv : j ≤ v.toNat) :
    (tickTimer p)^[ticksToDrop p a j] (v, a) = (v - BitVec.ofNat 8 j, 0) := by
  induction j, hj using Nat.le_induction with
  | base =>
    rw [show ticksToDrop p a 1 = p - a by simp [ticksToDrop]]
    exact iterate_tickTimer_drops hv ha
  | succ j hj ih =>
    have hpos : 0 < (v - BitVec.ofNat 8 j).toNat := by rw [toNat_sub_ofNat (by omega)]; omega
    have hone : (v - BitVec.ofNat 8 j - 1).toNat = (v - BitVec.ofNat 8 j).toNat - 1 := toNat_sub_ofNat (j := 1) hpos
    have hsub : v - BitVec.ofNat 8 j - 1 = v - BitVec.ofNat 8 (j + 1) := BitVec.eq_of_toNat_eq <| by
      rw [hone, toNat_sub_ofNat (by omega), toNat_sub_ofNat hv, Nat.sub_sub]
    have hdrop := iterate_tickTimer_drops (p := p) (a := 0) hpos (by omega)
    rw [Nat.sub_zero] at hdrop
    rw [ticksToDrop_succ p a hj, Function.iterate_add_apply, ih (by omega), hdrop, hsub]

/-- Before the counter first reads `j` less it reads more. -/
theorem lt_iterate_tickTimer {p a : Nat} {v : Byte} {j k : Nat} (ha : a < p) (hj : 1 ≤ j) (hv : j ≤ v.toNat)
    (hk : k < ticksToDrop p a j) : v.toNat - j < ((tickTimer p)^[k] (v, a)).1.toNat := by
  induction j, hj using Nat.le_induction with
  | base =>
    have hk' : a + k < p := by
      simp only [ticksToDrop, Nat.sub_self, Nat.zero_mul, Nat.add_zero] at hk
      omega
    rw [iterate_tickTimer_counts hv hk']
    show v.toNat - 1 < v.toNat
    omega
  | succ j hj ih =>
    by_cases hlt : k < ticksToDrop p a j
    · have := ih (by omega) hlt
      omega
    · obtain ⟨m, rfl⟩ : ∃ m, k = m + ticksToDrop p a j := ⟨k - ticksToDrop p a j, by omega⟩
      rw [ticksToDrop_succ p a hj] at hk
      have hpos : 0 < (v - BitVec.ofNat 8 j).toNat := by rw [toNat_sub_ofNat (by omega)]; omega
      rw [Function.iterate_add_apply, iterate_tickTimer_ticksToDrop ha hj (by omega),
        iterate_tickTimer_counts hpos (by omega)]
      show v.toNat - (j + 1) < (v - BitVec.ofNat 8 j).toNat
      rw [toNat_sub_ofNat (by omega)]
      omega

/-- Settles O14: by induction on how far the counter has dropped; a counter at 0 stays there. -/
theorem timerReadback : Obligations.TimerReadback := by
  intro p a v j ha hj hv
  refine ⟨iterate_tickTimer_ticksToDrop ha hj hv, fun k hk => lt_iterate_tickTimer ha hj hv hk, fun hall k hk => ?zero⟩
  case zero =>
    obtain ⟨m, rfl⟩ : ∃ m, k = m + ticksToDrop p a j := ⟨k - ticksToDrop p a j, (Nat.sub_add_cancel hk).symm⟩
    have hend : v - BitVec.ofNat 8 j = 0 := BitVec.eq_of_toNat_eq (by rw [toNat_sub_ofNat hv, hall]; exact Nat.sub_self _)
    rw [Function.iterate_add_apply, iterate_tickTimer_ticksToDrop ha hj hv, hend, iterate_tickTimer_zero]

end Sys2Proof.Machine
end

section
/-! Construction and launch (spec/10_state.md section 12, spec/70_reset_and_hazards.md section 1): MEM_INIT and the font are
copied to their addresses, and then the ROM. -/

namespace Sys2Proof.Machine

/-! ### The state after construction -/

theorem font_length : font.length = 80 := rfl

theorem constructionByte?_outside {a : Nat} (h : a < 0x050 ∨ 0x0A0 ≤ a) : constructionByte? a = none := by
  unfold constructionByte? fontBase
  split
  · exact List.getElem?_eq_none (by rw [font_length]; omega)
  · rfl

theorem memRead_reset_outside {a : Nat} (h : a < 0x050 ∨ 0x0A0 ≤ a) : State.reset.memRead a = Config.memInit a := by
  rw [memRead_reset, constructionByte?_outside h, Option.getD_none]

/-- Settles O15: the fields as they are written down, and the font and MEM_INIT as what unlisted addresses read as. -/
theorem constructionState : Obligations.ConstructionState := by
  refine ⟨by decide, rfl, rfl, rfl, rfl, rfl, rfl, rfl, fun k hk => ?slots, fun k _ => ?keys,
    fun r c _ _ => Frame.pixel_clear r c, fun k hk => memRead_reset_font hk, fun a ha => memRead_reset_outside ha, rfl, rfl⟩
  case slots => simp [State.slot, State.reset, hk]
  case keys => exact BitVec.getLsbD_zero

/-- Settles O18: the accumulators are 0, which is below any period, and no return address is held. -/
theorem constructionStateMeetsInvariant : Obligations.ConstructionStateMeetsInvariant where
  mem := State.reset_mem_wf
  dtAcc := timerPeriod_pos
  stAcc := timerPeriod_pos
  pc := by decide
  depth := Nat.zero_le _
  stack := fun k hk => absurd hk (Nat.not_lt_zero k)
  frame := rfl

/-! ### The ROM load -/

theorem romWellFormed_iff (rom : Rom) : rom.wellFormed = true ↔ rom.length ≤ 3584 := by
  rw [Rom.wellFormed, decide_eq_true_iff]
  omega

/-- Settles O17: a ROM that ends inside memory has at most 3584 bytes. -/
theorem romSizeLimit : Obligations.RomSizeLimit := by
  refine fun s rom => ⟨fun h => if_neg ?tooLong, fun h => ⟨_, s.loadRom_of_wellFormed ((romWellFormed_iff rom).2 h)⟩⟩
  case tooLong =>
    rw [romWellFormed_iff]
    omega

theorem loadRom_next {s t : State} {rom : Rom} (h : s.loadRom rom = .next t) :
    rom.wellFormed = true ∧ t = s.copyBytes 0x200 rom := by
  cases hrom : rom.wellFormed with
  | true => exact ⟨rfl, Host.Outcome.next.inj (h.symm.trans (s.loadRom_of_wellFormed hrom))⟩
  | false => simp [State.loadRom, hrom] at h

/-- Settles O20: the load writes addresses of memory only. -/
theorem romLoadKeepsInvariant : Obligations.RomLoadKeepsInvariant := by
  intro s t rom hinv h
  obtain ⟨hrom, rfl⟩ := loadRom_next h
  have hfits : 0x200 + rom.length ≤ lastAddr + 1 := of_decide_eq_true hrom
  have hwf := State.copyBytes_wf hinv.mem hfits
  rw [State.copyBytes_eq rom s 0x200]
  exact { hinv with mem := hwf }

/-! ### Under given parameters (R39, R255): construction is two copies onto `State.reset`, MEM_INIT and then the font -/

theorem wellFormed_parts {p : Params} (h : p.wellFormed = true) :
    1 ≤ p.cycleRate / 60 ∧ p.memInit.length ≤ 4096 ∧ p.font.length = 80 := by
  simp only [Params.wellFormed, cycleRateWellFormed, Bool.and_eq_true, decide_eq_true_eq] at h
  obtain ⟨⟨⟨-, hrate⟩, hinit⟩, hfont⟩ := h
  exact ⟨hrate, hinit, hfont⟩

theorem memRead_construct_font (p : Params) {k : Nat} (h : k < p.font.length) :
    (State.construct p).memRead (0x050 + k) = p.font[k] :=
  State.memRead_copyBytes_inside _ h

theorem memRead_construct_outside {p : Params} (hfont : p.font.length = 80) {a : Nat} (ha : a < 0x050 ∨ 0x0A0 ≤ a) :
    (State.construct p).memRead a = (State.reset.copyBytes 0 p.memInit).memRead a :=
  State.memRead_copyBytes_outside _ (by rw [hfont]; exact ha)

theorem construct_changes_only_mem (p : Params) :
    State.construct p = { State.reset with mem := (State.construct p).mem } :=
  (State.copyBytes_eq p.font (State.reset.copyBytes 0 p.memInit) 0x050).trans <|
    congrArg (fun u : State => { u with mem := (State.construct p).mem }) (State.copyBytes_eq p.memInit State.reset 0)

theorem construct_wf {p : Params} (hinit : p.memInit.length ≤ 4096) (hfont : p.font.length = 80) :
    (State.construct p).mem.wf := by
  refine State.copyBytes_wf (State.copyBytes_wf State.reset_mem_wf ?_) ?_
  · rw [Nat.zero_add]
    exact hinit
  · rw [hfont]
    decide

/-- Copying the default font to where it already stands lists nothing. -/
theorem construct_hardware : State.construct hardware = State.reset := by
  have hmem : (State.construct hardware).mem = [] :=
    State.mem_copyBytes_construction rfl fun k hk => by
      rw [show fontBase + k = 0x050 + k from rfl, constructionByte?_font]
      exact List.getElem?_eq_getElem hk
  rw [construct_changes_only_mem, hmem]
  rfl

/-- Settles O60: the font is copied last, so it stands over MEM_INIT; the launch refuses what is not allowed. -/
theorem launchUnderParameters : Obligations.LaunchUnderParameters := by
  refine ⟨fun p hp => ?allowed, construct_hardware, fun p rom hrate => if_neg fun hp => ?refused⟩
  case allowed =>
    obtain ⟨-, hinit, hfont⟩ := wellFormed_parts hp
    refine ⟨fun k hk => memRead_construct_font p hk, fun a ha hout => ?given, fun a ha hout => ?free,
      construct_changes_only_mem p, construct_wf hinit hfont, fun rom => if_pos hp⟩
    case given =>
      have hread := State.memRead_copyBytes_inside State.reset (a := 0) ha
      rw [Nat.zero_add] at hread
      rw [memRead_construct_outside hfont hout, hread]
    case free =>
      rw [memRead_construct_outside hfont hout]
      exact State.memRead_copyBytes_outside _ (.inr (by rwa [Nat.zero_add]))
  case refused =>
    obtain ⟨hperiod, -, -⟩ := wellFormed_parts hp
    omega

end Sys2Proof.Machine
end

section
/-! Every step keeps the invariant: field by field, over the kinds of effects an instruction can have. -/

namespace Sys2Proof.Machine

/-- A state whose fetch has succeeded: the invariant holds of it, no fatal is taken, and PC lies past the instruction, which
lies in memory. -/
structure State.AfterFetch (s : State) : Prop where
  inv : s.Inv
  safe : s.fault = none
  pc_ge : 2 ≤ s.pc.toNat
  pc_le : s.pc.toNat ≤ 0x1000

theorem Effect.keeps_mem {s t : State} {i : Instr} (h : Effect s i t) (hs : s.Inv) : t.mem.wf := by
  have hstore (bs : List Byte) := State.storeBytes_wf (bs := bs) (a := indexBase s) hs.mem
  cases h with
  | ldBVx x m e h => exact (congrArg State.mem h) ▸ hstore _
  | ldMemVx x m e h => exact (congrArg State.mem h) ▸ hstore _
  | _ => exact hs.mem

/-- Where an instruction that is no call and no return goes: back without passing 0, on to at most 0x1002, or to a jump target,
of which 0x0FFF + 0x00FF is the greatest. -/
theorem State.AfterFetch.mayGoTo_le {s : State} (hs : s.AfterFetch) {a : Word} (h : s.MayGoTo a) : a.toNat ≤ 0x10FE := by
  have hge := hs.pc_ge
  have hle := hs.pc_le
  rcases h with rfl | rfl | rfl | h
  · omega
  · rw [BitVec.toNat_add, show (2 : Word).toNat = 2 from rfl]
    omega
  · rw [State.instrPc, BitVec.toNat_sub, show (2 : Word).toNat = 2 from rfl]
    omega
  · exact h

theorem Effect.keeps_pc {s t : State} {i : Instr} (h : Effect s i t) (hs : s.AfterFetch) : t.pc.toNat ≤ 0x10FE := by
  cases h with
  | pc a ha => exact hs.mayGoTo_le ha
  | ret k hk =>
    have hslot := hs.inv.stack (s.sp.val - 1) (by omega)
    show (s.slot (s.sp.val - 1)).toNat ≤ 0x10FE
    omega
  | call a st k =>
    have ha := a.isLt
    show (addrOperand a).toNat ≤ 0x10FE
    rw [addrOperand_toNat]
    omega
  | _ => exact hs.inv.pc

theorem Effect.keeps_depth {s t : State} {i : Instr} (h : Effect s i t) (hs : s.Inv) : t.sp.val ≤ stackCapacity := by
  have hdepth := hs.depth
  cases h with
  | ret k hk =>
    show k.val ≤ stackCapacity
    omega
  | call a st k hroom hk =>
    show k.val ≤ stackCapacity
    omega
  | _ => exact hdepth

/-- A call pushes the PC after its fetch, a return pops without a write. -/
theorem Effect.keeps_stack {s t : State} {i : Instr} (h : Effect s i t) (hs : s.AfterFetch) :
    ∀ k, k < t.sp.val → (t.slot k).toNat ≤ 0x1000 := by
  have hstack := hs.inv.stack
  cases h with
  | ret k hk => exact fun j (hj : j < k.val) => hstack j (by omega)
  | call a st k hroom hk htop hother =>
    intro j (hj : j < k.val)
    show (({ s with stack := st } : State).slot j).toNat ≤ 0x1000
    by_cases hjs : j = s.sp.val
    · rw [hjs, htop]
      exact hs.pc_le
    · rw [hother j hjs]
      exact hstack j (by omega)
  | _ => exact hstack

/-- An instruction that raises a fatal has not drawn. -/
theorem Effect.keeps_fb {s t : State} {i : Instr} (h : Effect s i t) (hs : s.fault = none) (ht : t.fault ≠ none) :
    t.fb = s.fb := by
  cases h with
  | cls => exact absurd hs ht
  | drw => exact absurd hs ht
  | _ => rfl

/-- The exchange presents FB, and for the rest the invariant is that of the state before it. -/
theorem inv_hostExchange {u : State} (hmem : u.mem.wf) (hdt : u.dtAcc < timerPeriod) (hst : u.stAcc < timerPeriod)
    (hpc : u.pc.toNat ≤ 0x10FE) (hdepth : u.sp.val ≤ stackCapacity) (hstack : ∀ k, k < u.sp.val → (u.slot k).toNat ≤ 0x1000) :
    u.hostExchange.Inv :=
  ⟨hmem, hdt, hst, hpc, hdepth, hstack, rfl⟩

/-- What is left to say of a state that has not been presented. -/
theorem inv_of_hostExchange {u : State} (h : u.hostExchange.Inv) (hframe : u.frameOut = u.fb) : u.Inv :=
  ⟨h.mem, h.dtAcc, h.stAcc, h.pc, h.depth, h.stack, hframe⟩

/-- An instruction keeps the invariant, up to the presented frame where it raises no fatal. -/
theorem exec_keeps_inv {s u : State} {i : Instr} (hs : s.AfterFetch) (h : exec i s = .next u) :
    u.hostExchange.Inv ∧ (u.fault ≠ none → u.frameOut = u.fb) := by
  have heffect := effect_of_exec h
  obtain ⟨-, hdt, hst, -, hframe, -⟩ := instructionsLeaveHostState i s u h
  refine ⟨inv_hostExchange (heffect.keeps_mem hs.inv) (hdt ▸ hs.inv.dtAcc) (hst ▸ hs.inv.stAcc) (heffect.keeps_pc hs)
    (heffect.keeps_depth hs.inv) (heffect.keeps_stack hs), fun hfault => ?frame⟩
  case frame => rw [hframe, heffect.keeps_fb hs.safe hfault, hs.inv.frame]

theorem execWord_keeps_inv {s u : State} {w : Word} (hs : s.AfterFetch) (h : execWord exec w s = .next u) :
    u.hostExchange.Inv ∧ (u.fault ≠ none → u.frameOut = u.fb) := by
  unfold execWord at h
  split at h
  · exact exec_keeps_inv hs h
  · obtain rfl := Host.Outcome.next.inj h
    exact ⟨{ hs.inv with frame := rfl }, fun _ => hs.inv.frame⟩

/-! ### The parts of the cycle around the instruction -/

theorem inv_tickTimers {s : State} (h : s.Inv) : s.tickTimers.Inv :=
  { h with
    dtAcc := tickTimer_acc_lt timerPeriod_pos h.dtAcc
    stAcc := tickTimer_acc_lt timerPeriod_pos h.stAcc }

theorem inv_raiseFatal {s : State} (h : s.Inv) (r : Fatal) : (s.raiseFatal r).Inv := { h with }

theorem fetchWord_ok_pc {s : State} {w : Word} (h : s.fetchWord = .ok w) : s.pc.toNat ≤ 0xFFE := by
  by_contra hpc
  rw [State.fetchWord_error (Nat.lt_of_not_le hpc)] at h
  cases h

theorem afterFetch_advancePc {s : State} {w : Word} (hs : s.Inv) (hsafe : s.fault = none) (h : s.fetchWord = .ok w) :
    s.advancePc.AfterFetch := by
  have hpc := fetchWord_ok_pc h
  have hadd : s.advancePc.pc.toNat = s.pc.toNat + 2 := by
    rw [State.advancePc_pc, BitVec.toNat_add, show (2 : Word).toNat = 2 from rfl]
    omega
  exact ⟨{ hs with pc := by rw [hadd]; omega }, hsafe, by omega, by omega⟩

/-- Settles O19: the tick, then either the fetch raises, or the instruction runs and the host exchange follows unless it
raised. -/
theorem stepKeepsInvariant : Obligations.StepKeepsInvariant := by
  intro s t hs h
  have htick := inv_tickTimers hs
  obtain ⟨⟨hsafe, -⟩, ⟨r, -, rfl⟩ | ⟨w, u, hfetch, hexec, rfl⟩⟩ := step_next h
  · exact inv_raiseFatal htick r
  · obtain ⟨hinv, hframe⟩ := execWord_keeps_inv (afterFetch_advancePc htick hsafe hfetch) hexec
    split
    · rename_i hfault
      exact inv_of_hostExchange hinv (hframe (Option.isSome_iff_ne_none.1 hfault))
    · exact hinv

end Sys2Proof.Machine
end
